-- ==== Sys2Proof/Word.lean ====
section
/-! DEFINITION. Bytes, byte strings and Blocks: the data every interface of the core carries (00_scope.md R8,
20_memory.md R51). -/

namespace Sys2Proof

/-- A byte: 8 bits, bit 0 the least significant (R8, R9). -/
abbrev Byte := BitVec 8

/-- A byte string, byte 0 first (R8). -/
abbrev Bytes := List Byte

/-- A Block: a byte string of exactly 16 bytes (R6, R8). It is neither big- nor little-endian until a unit reads it
as a number (R51); the two readings are the types `CmacField` and `PolyvalField` of Machine/Field128.lean (R54). -/
structure Block where
  bytes : Bytes
  length_eq : bytes.length = 16
  deriving DecidableEq, Repr

namespace Block

/-- The Block whose byte `i` is `f i`. -/
def ofFn (f : Nat → Byte) : Block := ⟨(List.range 16).map f, by simp⟩

/-- Byte `i` of a Block (zero beyond byte 15, which no rule reads). -/
def get (b : Block) (i : Nat) : Byte := b.bytes.getD i 0

/-- Sixteen zero bytes, `zeros(16)`. -/
def zero : Block := ofFn fun _ => 0

/-- Bytewise exclusive-or (R11). -/
def xor (a b : Block) : Block := ofFn fun i => a.get i ^^^ b.get i

/-- The first 16 bytes of a byte string as a Block (zero bytes where the string is shorter; every use below has a
string of at least 16 bytes or one padded to 16). -/
def ofBytes (t : Bytes) : Block := ofFn fun i => t.getD i 0

end Block

end Sys2Proof
end

