-- ==== Sys2Proof/Machine/Operands.lean ====
section
/-! DEFINITION. Integers from bytes, splitting into Blocks and padding (00_scope.md R10, R11; 20_memory.md R52 to R61). -/

namespace Sys2Proof.Machine

/-! ### Integers from bytes (R10) -/

/-- `le32(s)`: the integer of the first four bytes, byte 0 least significant (R10, R65). -/
def le32 (t : Bytes) : Nat :=
  (t.getD 0 0).toNat + 2 ^ 8 * (t.getD 1 0).toNat + 2 ^ 16 * (t.getD 2 0).toNat + 2 ^ 24 * (t.getD 3 0).toNat

/-- `u32le(n)` for `n < 2^32`: four bytes, byte 0 least significant (R10). -/
def u32le (n : Nat) : Bytes :=
  [BitVec.ofNat 8 n, BitVec.ofNat 8 (n / 2 ^ 8), BitVec.ofNat 8 (n / 2 ^ 16), BitVec.ofNat 8 (n / 2 ^ 24)]

/-- `le64(s)`: the 64-bit integer of the first eight bytes, byte 0 least significant (R10). -/
def le64 (t : Bytes) : BitVec 64 :=
  (List.range 8).foldl (fun acc i => acc ||| ((t.getD i 0).setWidth 64 <<< (8 * i))) 0

/-- `u64le(n)`: eight bytes, byte 0 least significant (R10). -/
def u64le (v : BitVec 64) : Bytes := (List.range 8).map fun i => (v >>> (8 * i)).setWidth 8

/-- `be128(b)`: byte 0 most significant (R10, R52). -/
def be128 (b : Block) : BitVec 128 :=
  (List.range 16).foldl (fun acc i => acc ||| ((b.get i).setWidth 128 <<< (8 * (15 - i)))) 0

/-- `from_be128(v)`, the inverse of `be128` (R10). -/
def ofBe128 (v : BitVec 128) : Block := Block.ofFn fun i => (v >>> (8 * (15 - i))).setWidth 8

/-! ### Byte strings and Blocks (R11, R57) -/

/-- `a XOR b` on byte strings of equal length (R11). -/
def xorBytes (a b : Bytes) : Bytes := List.zipWith (· ^^^ ·) a b

/-- `n` zero bytes. -/
def zeros (n : Nat) : Bytes := List.replicate n 0

/-- `MemRead(buf, off, n)`: the byte string `buf[off : off+n]` (R12). -/
def memRead (buf : Bytes) (off n : Nat) : Bytes := (buf.drop off).take n

/-- `blk(s, i) = s[16i : 16i+16]` (R57). -/
def blk (t : Bytes) (i : Nat) : Block := Block.ofBytes (memRead t (16 * i) 16)

/-- The first `n` Blocks of a byte string, in order. -/
def blks (t : Bytes) (n : Nat) : List Block := (List.range n).map (blk t)

/-! ### Padding (R58, R59) -/

/-- `pad80(t)` for at most 15 bytes: the bytes, one byte 0x80, zero bytes to 16 (R58). -/
def pad80 (t : Bytes) : Block := Block.ofBytes (t ++ 0x80 :: zeros (15 - t.length))

/-- `zpad16(t)`: zero bytes to the next multiple of 16, none if already there (R59). -/
def zpad16 (t : Bytes) : Bytes := t ++ zeros ((16 - t.length % 16) % 16)

/-! ### The wire layout of a decrypt input (R61) -/

/-- The ciphertext part of `ct || tag`. -/
def ctOf (input : Bytes) : Bytes := memRead input 0 (input.length - 16)

/-- The tag part of `ct || tag`: the last 16 bytes. -/
def tagOf (input : Bytes) : Block := Block.ofBytes (memRead input (input.length - 16) 16)

end Sys2Proof.Machine
end

