-- ==== Sys2Proof/Config.lean ====
section
/-! DEFINITION. What one hardware fixes and the spec leaves open (00_scope.md R7): the two size limits and the two
external collaborators. All are constants with no body, so a theorem about the model holds for every value. -/

namespace Sys2Proof

/-- The size limits of R7, with the constraints R7 puts on them. MAX_COMP has the upper bound 2^32 - 1 as well: a
component count is a 32-bit field (R81, R82), so a larger MAX_COMP admits no further descriptor
(DEDUCED, notes/assumptions/4.md; safe). -/
structure Limits where
  maxLen : Nat
  maxComp : Nat
  maxLen_ge : 64 ≤ maxLen
  maxLen_lt : maxLen < 2 ^ 32
  maxComp_ge : 2 ≤ maxComp
  maxComp_lt : maxComp < 2 ^ 32

/-- A STR length is at most MAX_LEN (R81). The first test is implied by R7 (`64 <= MAX_LEN`); with it, lengths up to 64
are accepted by computation whatever MAX_LEN is. -/
def Limits.fits (lim : Limits) (n : Nat) : Bool := decide (n ≤ 64) || decide (n ≤ lim.maxLen)

/-- A LIST count is at most MAX_COMP (R81); the first test is implied by R7 (`MAX_COMP >= 2`). -/
def Limits.fitsCount (lim : Limits) (c : Nat) : Bool := decide (c ≤ 2) || decide (c ≤ lim.maxComp)

/-- The increment kind of a keystream call: BE128 for SIV, LE32 for GCM-SIV (20_memory.md R64). -/
inductive Inc where
  | be128
  | le32
  deriving DecidableEq, Repr

/-- The two collaborators (R62, R64), given byte by byte: `bcoByte key blk i` is byte `i` of `E(key, blk)`, and
`ctrksByte key seed n inc i` is byte `i` of `KS(key, seed, n, inc)`. Every pair of functions that meets the contracts of
R62 and R64 is of this form (notes/assumptions/2.md, 3.md; safe). -/
structure Oracles where
  bcoByte : Bytes → Block → Nat → Byte
  ctrksByte : Bytes → Block → Nat → Inc → Nat → Byte

/-- `E(key, blk)`, one call on the BCO port (R62). -/
def Oracles.E (o : Oracles) (key : Bytes) (blk : Block) : Block := Block.ofFn (o.bcoByte key blk)

/-- `KS(key, seed, n, inc)`, one call on the CTRKS port: exactly `n` bytes (R64). -/
def Oracles.KS (o : Oracles) (key : Bytes) (seed : Block) (n : Nat) (inc : Inc) : Bytes :=
  (List.range n).map (o.ctrksByte key seed n inc)

namespace Config

/-- Fixes MAX_LEN; no body, so no proof can see its value. -/
opaque maxLenSeed : BitVec 32

/-- Fixes MAX_COMP; no body. -/
opaque maxCompSeed : BitVec 32

/-- The block cipher of the platform, byte by byte; no body. -/
opaque bcoByte : Bytes → Block → Nat → Byte

/-- The keystream generator of the platform, byte by byte; no body. -/
opaque ctrksByte : Bytes → Block → Nat → Inc → Nat → Byte

/-- The limits of this hardware: any MAX_LEN from 64 to 2^32 - 1, any MAX_COMP from 2 up (R7). -/
def limits : Limits where
  maxLen := max 64 maxLenSeed.toNat
  maxComp := max 2 maxCompSeed.toNat
  maxLen_ge := by omega
  maxLen_lt := by have := maxLenSeed.isLt; omega
  maxComp_ge := by omega
  maxComp_lt := by have := maxCompSeed.isLt; omega

/-- The collaborators connected to this hardware (R3: "A model takes both as parameters"). -/
def oracles : Oracles := ⟨bcoByte, ctrksByte⟩

end Config

end Sys2Proof
end

