-- ==== Sys2Proof/Syntax.lean ====
section
/-! DEFINITION. The sixteen commands with their operands (30_encoding.md R83, R86), one constructor per row of
spec/opcode_table.json. -/

namespace Sys2Proof

/-- The sixteen opcodes (R86). -/
inductive Opcode where
  | dbl | pmul | cteq | clr
  | cmacInit | cmacSum | cmacSumm
  | s2v
  | sivEnc | sivDec
  | gsivDerive | pvHash | pvDigest | gsivTag | gsivEnc | gsivDec
  deriving DecidableEq, Repr

/-- A command with its operand fields, in the order of its format (R83). Key, nonce and message VALUES are not part of
decoding (R88), so any byte string may stand in a STR field. -/
inductive Instr where
  /-- DBL, format B1 -/
  | dbl (x : Block)
  /-- PMUL, format B2 -/
  | pmul (a b : Block)
  /-- CTEQ, format B2 -/
  | cteq (a b : Block)
  /-- CLR, format Z -/
  | clr
  /-- CMAC.INIT, format K -/
  | cmacInit (key : Bytes)
  /-- CMAC.SUM, format KM -/
  | cmacSum (key msg : Bytes)
  /-- CMAC.SUMM, format KMB -/
  | cmacSumm (key msg : Bytes) (mask : Block)
  /-- S2V, format KLM -/
  | s2v (key : Bytes) (comps : List Bytes) (fin : Bytes)
  /-- SIV.ENC, format A -/
  | sivEnc (key nonce ad msg : Bytes)
  /-- SIV.DEC, format A -/
  | sivDec (key nonce ad msg : Bytes)
  /-- GSIV.DERIVE, format KN -/
  | gsivDerive (key nonce : Bytes)
  /-- PV.HASH, format BM -/
  | pvHash (h : Block) (data : Bytes)
  /-- PV.DIGEST, format BMM -/
  | pvDigest (authKey : Block) (ad pt : Bytes)
  /-- GSIV.TAG, format A -/
  | gsivTag (key nonce ad msg : Bytes)
  /-- GSIV.ENC, format A -/
  | gsivEnc (key nonce ad msg : Bytes)
  /-- GSIV.DEC, format A -/
  | gsivDec (key nonce ad msg : Bytes)
  deriving DecidableEq, Repr

/-- The opcode of a command. -/
def Instr.opcode : Instr → Opcode
  | .dbl _ => .dbl
  | .pmul _ _ => .pmul
  | .cteq _ _ => .cteq
  | .clr => .clr
  | .cmacInit _ => .cmacInit
  | .cmacSum _ _ => .cmacSum
  | .cmacSumm _ _ _ => .cmacSumm
  | .s2v _ _ _ => .s2v
  | .sivEnc _ _ _ _ => .sivEnc
  | .sivDec _ _ _ _ => .sivDec
  | .gsivDerive _ _ => .gsivDerive
  | .pvHash _ _ => .pvHash
  | .pvDigest _ _ _ => .pvDigest
  | .gsivTag _ _ _ _ => .gsivTag
  | .gsivEnc _ _ _ _ => .gsivEnc
  | .gsivDec _ _ _ _ => .gsivDec

end Sys2Proof
end

