-- ==== Sys2Proof/WellFormed.lean ====
section
/-! DEFINITION. Which commands a descriptor can carry: every STR at most MAX_LEN bytes, every LIST at most MAX_COMP
elements (30_encoding.md R81, R88). -/

namespace Sys2Proof

/-- A byte string fits a STR field (R81). -/
def strOk (lim : Limits) (t : Bytes) : Bool := lim.fits t.length

/-- A list of byte strings fits a LIST field (R81). -/
def listOk (lim : Limits) (ts : List Bytes) : Bool := lim.fitsCount ts.length && ts.all (strOk lim)

/-- The command can be carried by a descriptor under the limits `lim`. -/
def Instr.wellFormed (lim : Limits) : Instr → Bool
  | .dbl _ => true
  | .pmul _ _ => true
  | .cteq _ _ => true
  | .clr => true
  | .cmacInit key => strOk lim key
  | .cmacSum key msg => strOk lim key && strOk lim msg
  | .cmacSumm key msg _ => strOk lim key && strOk lim msg
  | .s2v key comps fin => strOk lim key && listOk lim comps && strOk lim fin
  | .sivEnc key nonce ad msg => strOk lim key && strOk lim nonce && strOk lim ad && strOk lim msg
  | .sivDec key nonce ad msg => strOk lim key && strOk lim nonce && strOk lim ad && strOk lim msg
  | .gsivDerive key nonce => strOk lim key && strOk lim nonce
  | .pvHash _ data => strOk lim data
  | .pvDigest _ ad pt => strOk lim ad && strOk lim pt
  | .gsivTag key nonce ad msg => strOk lim key && strOk lim nonce && strOk lim ad && strOk lim msg
  | .gsivEnc key nonce ad msg => strOk lim key && strOk lim nonce && strOk lim ad && strOk lim msg
  | .gsivDec key nonce ad msg => strOk lim key && strOk lim nonce && strOk lim ad && strOk lim msg

end Sys2Proof
end

