-- ==== Sys2Proof/Decode.lean ====
section
/-! DEFINITION. Descriptors: the opcode map (30_encoding.md R86), the decoder, total on every byte string and rejecting
by name (R88, R89), and the encoder (R84). -/

namespace Sys2Proof

open Sys2Proof.Machine (le32 u32le zeros)

/-- The opcode byte (R86). -/
def Opcode.byte : Opcode → Byte
  | .dbl => 0x01
  | .pmul => 0x02
  | .cteq => 0x03
  | .clr => 0x0F
  | .cmacInit => 0x10
  | .cmacSum => 0x11
  | .cmacSumm => 0x12
  | .s2v => 0x20
  | .sivEnc => 0x30
  | .sivDec => 0x31
  | .gsivDerive => 0x40
  | .pvHash => 0x41
  | .pvDigest => 0x42
  | .gsivTag => 0x43
  | .gsivEnc => 0x44
  | .gsivDec => 0x45

/-- The opcode a first byte names: the whole byte is matched (R85); every other byte is unassigned (R89). -/
def opcodeOf (b : Byte) : Option Opcode :=
  [Opcode.dbl, .pmul, .cteq, .clr, .cmacInit, .cmacSum, .cmacSumm, .s2v, .sivEnc, .sivDec, .gsivDerive, .pvHash,
    .pvDigest, .gsivTag, .gsivEnc, .gsivDec].find? fun op => op.byte == b

/-- Why a byte string is no descriptor (R88, R234). The hardware makes no difference between them: each is the verdict
*illegal*. -/
inductive Illegal where
  /-- the empty descriptor -/
  | empty
  /-- byte 0 is none of the sixteen opcodes -/
  | unassignedOpcode
  /-- a field, or the bytes it announces, does not lie inside the descriptor -/
  | truncated
  /-- a STR length above MAX_LEN -/
  | lengthAboveMaxLen
  /-- a LIST count above MAX_COMP -/
  | countAboveMaxComp
  /-- bytes remain after the last field -/
  | trailingBytes
  deriving DecidableEq, Repr

/-! ### Field readers (R81): each answers the field's value and the bytes after it -/

/-- A BLK field. -/
def readBlk (t : Bytes) : Except Illegal (Block × Bytes) :=
  if t.length < 16 then .error .truncated else .ok (Block.ofBytes (t.take 16), t.drop 16)

/-- A length or count field, 4 bytes, `u32le` (R82). -/
def readNum (t : Bytes) : Except Illegal (Nat × Bytes) :=
  if t.length < 4 then .error .truncated else .ok (le32 t, t.drop 4)

/-- A STR field. -/
def readStr (lim : Limits) (t : Bytes) : Except Illegal (Bytes × Bytes) := do
  let (n, r) ← readNum t
  if lim.fits n then
    if r.length < n then .error .truncated else .ok (r.take n, r.drop n)
  else .error .lengthAboveMaxLen

/-- `c` STR fields. -/
def readStrs (lim : Limits) : Nat → Bytes → Except Illegal (List Bytes × Bytes)
  | 0, t => .ok ([], t)
  | c + 1, t => do
    let (x, r) ← readStr lim t
    let (xs, r) ← readStrs lim c r
    .ok (x :: xs, r)

/-- A LIST field: the count is compared with MAX_COMP before the elements are read. -/
def readList (lim : Limits) (t : Bytes) : Except Illegal (List Bytes × Bytes) := do
  let (c, r) ← readNum t
  if lim.fitsCount c then readStrs lim c r else .error .countAboveMaxComp

/-- The four STR fields of format A. -/
def readA (lim : Limits) (t : Bytes) : Except Illegal ((Bytes × Bytes × Bytes × Bytes) × Bytes) := do
  let (key, t) ← readStr lim t
  let (nonce, t) ← readStr lim t
  let (ad, t) ← readStr lim t
  let (msg, t) ← readStr lim t
  .ok ((key, nonce, ad, msg), t)

/-- The fields after the opcode byte, in the order of the opcode's format (R83, R84), and the bytes after them. -/
def decodeFields (lim : Limits) (op : Opcode) (t : Bytes) : Except Illegal (Instr × Bytes) :=
  match op with
  | .dbl => do
    let (x, t) ← readBlk t
    .ok (.dbl x, t)
  | .pmul => do
    let (a, t) ← readBlk t
    let (b, t) ← readBlk t
    .ok (.pmul a b, t)
  | .cteq => do
    let (a, t) ← readBlk t
    let (b, t) ← readBlk t
    .ok (.cteq a b, t)
  | .clr => .ok (.clr, t)
  | .cmacInit => do
    let (key, t) ← readStr lim t
    .ok (.cmacInit key, t)
  | .cmacSum => do
    let (key, t) ← readStr lim t
    let (msg, t) ← readStr lim t
    .ok (.cmacSum key msg, t)
  | .cmacSumm => do
    let (key, t) ← readStr lim t
    let (msg, t) ← readStr lim t
    let (mask, t) ← readBlk t
    .ok (.cmacSumm key msg mask, t)
  | .s2v => do
    let (key, t) ← readStr lim t
    let (comps, t) ← readList lim t
    let (fin, t) ← readStr lim t
    .ok (.s2v key comps fin, t)
  | .sivEnc => do
    let ((key, nonce, ad, msg), t) ← readA lim t
    .ok (.sivEnc key nonce ad msg, t)
  | .sivDec => do
    let ((key, nonce, ad, msg), t) ← readA lim t
    .ok (.sivDec key nonce ad msg, t)
  | .gsivDerive => do
    let (key, t) ← readStr lim t
    let (nonce, t) ← readStr lim t
    .ok (.gsivDerive key nonce, t)
  | .pvHash => do
    let (h, t) ← readBlk t
    let (data, t) ← readStr lim t
    .ok (.pvHash h data, t)
  | .pvDigest => do
    let (authKey, t) ← readBlk t
    let (ad, t) ← readStr lim t
    let (pt, t) ← readStr lim t
    .ok (.pvDigest authKey ad pt, t)
  | .gsivTag => do
    let ((key, nonce, ad, msg), t) ← readA lim t
    .ok (.gsivTag key nonce ad msg, t)
  | .gsivEnc => do
    let ((key, nonce, ad, msg), t) ← readA lim t
    .ok (.gsivEnc key nonce ad msg, t)
  | .gsivDec => do
    let ((key, nonce, ad, msg), t) ← readA lim t
    .ok (.gsivDec key nonce ad msg, t)

/-- `decode(desc)` under the limits `lim` (R88): conditions (1), (2) and (3) in that order. -/
def decodeWith (lim : Limits) (desc : Bytes) : Except Illegal Instr :=
  match desc with
  | [] => .error .empty
  | b :: t =>
    match opcodeOf b with
    | none => .error .unassignedOpcode
    | some op =>
      match decodeFields lim op t with
      | .error e => .error e
      | .ok (i, []) => .ok i
      | .ok (_, _ :: _) => .error .trailingBytes

/-- `decode(desc)` of this hardware (R88). -/
def decode (desc : Bytes) : Except Illegal Instr := decodeWith Config.limits desc

/-! ### The encoder (R81, R84) -/

/-- A STR field: `u32le(n)`, then the bytes. -/
def encodeStr (t : Bytes) : Bytes := u32le t.length ++ t

/-- A LIST field: `u32le(c)`, then the elements as STR fields. -/
def encodeList (ts : List Bytes) : Bytes := u32le ts.length ++ ts.flatMap encodeStr

/-- The operand fields of a command, in the order of its format (R84). -/
def encodeFields : Instr → Bytes
  | .dbl x => x.bytes
  | .pmul a b => a.bytes ++ b.bytes
  | .cteq a b => a.bytes ++ b.bytes
  | .clr => []
  | .cmacInit key => encodeStr key
  | .cmacSum key msg => encodeStr key ++ encodeStr msg
  | .cmacSumm key msg mask => encodeStr key ++ encodeStr msg ++ mask.bytes
  | .s2v key comps fin => encodeStr key ++ encodeList comps ++ encodeStr fin
  | .sivEnc key nonce ad msg => encodeStr key ++ encodeStr nonce ++ encodeStr ad ++ encodeStr msg
  | .sivDec key nonce ad msg => encodeStr key ++ encodeStr nonce ++ encodeStr ad ++ encodeStr msg
  | .gsivDerive key nonce => encodeStr key ++ encodeStr nonce
  | .pvHash h data => h.bytes ++ encodeStr data
  | .pvDigest authKey ad pt => authKey.bytes ++ encodeStr ad ++ encodeStr pt
  | .gsivTag key nonce ad msg => encodeStr key ++ encodeStr nonce ++ encodeStr ad ++ encodeStr msg
  | .gsivEnc key nonce ad msg => encodeStr key ++ encodeStr nonce ++ encodeStr ad ++ encodeStr msg
  | .gsivDec key nonce ad msg => encodeStr key ++ encodeStr nonce ++ encodeStr ad ++ encodeStr msg

/-- The descriptor of a command (R80, R84). -/
def encode (i : Instr) : Bytes := i.opcode.byte :: encodeFields i

/-! ### The table's words (notes/assumptions/17.md) -/

/-- The `n` bytes of a number, byte 0 in bits 7..0. -/
def bytesOfWord : Nat → Nat → Bytes
  | 0, _ => []
  | n + 1, w => BitVec.ofNat 8 w :: bytesOfWord n (w / 256)

/-- Zero bytes that stand above the bits given. -/
def tableZeros : Nat := 96

/-- The descriptor whose first `nbits` bits are `w` and whose further bits are zero. A descriptor's length follows from
its fields (R80), so the zero bytes are cut where the last field ends; bytes that do not read as fields stay as given. -/
def descriptorOfWord (nbits w : Nat) : Bytes :=
  let given := bytesOfWord (nbits / 8) w
  match given with
  | [] => []
  | b :: t =>
    match opcodeOf b with
    | none => given
    | some op =>
      match decodeFields Config.limits op (t ++ zeros tableZeros) with
      | .error _ => given
      | .ok (_, rest) =>
        if rest.length ≤ tableZeros then b :: (t ++ zeros (tableZeros - rest.length)) else given

/-- The command this decoder reads from an instruction whose bits are `w`, numbered as spec/opcode_table.json numbers
them; none where it refuses. -/
def decodeTableWord (nbits w : Nat) : Option Instr := (decode (descriptorOfWord nbits w)).toOption

end Sys2Proof
end

