-- ==== Sys2Proof/Machine/State.lean ====
section
/-! DEFINITION. The architectural state of the core (10_state.md R20 to R35), its value after reset (R34), and the two
ways the type of a step allows it to stop. -/

namespace Sys2Proof.Machine

/-- PHASE: the nine states of the sequencer (R26). Encodings 9 to 15 never occur (R26), so the type leaves them out
(notes/assumptions/15.md). -/
inductive Phase where
  | start | keyValidated | invalidKey | nonceValidated | invalidNonce
  | tagOrIVDerived | keystreamApplied | verifyTag | done
  deriving DecidableEq, Repr

/-- STATUS: the six outcome codes (R22, R230). Values 6 to 255 never occur (R22), so the type leaves them out
(notes/assumptions/15.md). -/
inductive Status where
  | ok | invalidKeySize | invalidNonceSize | shortInput | authenticationFailed | illegalCommand
  deriving DecidableEq, Repr

/-- The result registers that are storage (R22 to R24). `dout` holds the bytes at offsets below DLEN; every byte beyond
is zero (R24, notes/assumptions/5.md). -/
structure Results where
  status : Status
  eq : Bool
  dlen : Nat
  dout : Bytes
  deriving DecidableEq, Repr

/-- The operand registers (R28): OP, A, B, and the byte strings with their length registers. -/
structure Operands where
  op : Byte
  a : Block
  b : Block
  key : Bytes
  klen : Nat
  nonce : Bytes
  nlen : Nat
  ad : Bytes
  adlen : Nat
  msg : Bytes
  mlen : Nat
  comp : List Bytes
  ncomp : Nat
  deriving DecidableEq, Repr

/-- The working registers (R29). -/
structure Working where
  ck : Bytes
  k1 : Block
  k2 : Block
  x : Block
  d : Block
  mackey : Bytes
  enckey : Bytes
  authkey : Block
  s : Block
  tag : Block
  expected : Block
  seed : Block
  ptbuf : Bytes
  deriving DecidableEq, Repr

/-- One call on an oracle port, with the arguments the core presents (20_memory.md R62, R64). -/
inductive OracleCall where
  | bco (key : Bytes) (blk : Block)
  | ctrks (key : Bytes) (seed : Block) (n : Nat) (inc : Inc)
  deriving DecidableEq, Repr

/-- What the host does next (70_reset_and_hazards.md R277; notes/assumptions/1.md). -/
inductive HostAct where
  /-- present the descriptor with START and act again only when `DONE = 1` (R66) -/
  | start (desc : Bytes)
  /-- present the descriptor with START and act again at once, while the command may still run (R268) -/
  | present (desc : Bytes)
  /-- do nothing while the core goes on by one phase -/
  | wait
  /-- assert the reset input (R260, R261) -/
  | reset
  deriving DecidableEq, Repr

/-- The state: sequencer, result registers, operand and working registers (R20: "three classes of state and no other"),
and two fields of the model: `calls`, the oracle calls of the current or last command in the canonical order of R67
(notes/assumptions/9.md), and `host`, what the host does next (notes/assumptions/1.md). -/
structure State where
  phase : Phase
  results : Results
  operands : Operands
  working : Working
  calls : List OracleCall
  host : List HostAct
  deriving DecidableEq, Repr

/-- How a step can fault. The spec lets no command fault (60_exceptions.md R243): the five errors are results, next
states of this model. -/
inductive Fault where
  /-- Raised by `runToDone` and `advance` alone, when (OP, PHASE) lies on no path of 10_state.md R27 although the core is
  BUSY. No run from reset reaches such a state (R26, R27: PHASE "advances only along the paths"), and no command meets it.
  Safe: the model stops where the spec gives no next phase. -/
  | offPath
  deriving DecidableEq, Repr

/-- How a step can refuse. -/
inductive Refusal where
  /-- An instruction of the opcode table with no meaning yet, by its mnemonic. No arm raises it. Safe: it stops. -/
  | notModelled (mnemonic : String)
  deriving DecidableEq, Repr

/-- All result registers zero (R31, R34). -/
def Results.zero : Results := ⟨.ok, false, 0, []⟩

/-- All operand registers zero / empty (R32, R34). -/
def Operands.zero : Operands := ⟨0, Block.zero, Block.zero, [], 0, [], 0, [], 0, [], 0, [], 0⟩

/-- All working registers zero / empty (R32, R34). -/
def Working.zero : Working :=
  ⟨[], Block.zero, Block.zero, Block.zero, Block.zero, [], [], Block.zero, Block.zero, Block.zero, Block.zero, Block.zero, []⟩

/-- The state after reset (R34, R260): PHASE Start, every register zero or empty; no oracle call recorded, no host action
queued. -/
def State.reset : State := ⟨.start, Results.zero, Operands.zero, Working.zero, [], []⟩

/-- BUSY, a function of PHASE (R21). -/
def State.busy (s : State) : Bool := s.phase != .start && s.phase != .done

/-- DONE, a function of PHASE (R21). -/
def State.done (s : State) : Bool := s.phase == .done

end Sys2Proof.Machine
end

