-- ==== Sys2Proof/Machine/Flags.lean ====
section
/-! DEFINITION. The comparator behind EQ (46_comparator_system.md R220), the length checks behind STATUS
(60_exceptions.md R231 to R233), and the codes of STATUS and PHASE (R230, 10_state.md R26). -/

namespace Sys2Proof.Machine

/-- `cteq(a, b)`: the OR of the XORs of all sixteen byte pairs is zero (R220). -/
def cteq (a b : Block) : Bool := ((List.range 16).foldl (fun acc i => acc ||| (a.get i ^^^ b.get i)) 0#8) == 0#8

/-- A legal BCO key length: CMAC.INIT, CMAC.SUM, CMAC.SUMM and S2V take these (41_cmac.md R139). -/
def bcoKeyLen (n : Nat) : Bool := n == 16 || n == 24 || n == 32

/-- A legal SIV key length (43_siv.md R160). -/
def sivKeyLen (n : Nat) : Bool := n == 32 || n == 64

/-- A legal GCM-SIV master key length (44_gcmsiv_kdf.md R180). -/
def gsivKeyLen (n : Nat) : Bool := n == 16 || n == 32

/-- A legal GCM-SIV nonce length (R180, R232). -/
def gsivNonceLen (n : Nat) : Bool := n == 12

/-- A decrypt input shorter than the tag (R233). -/
def shortInput (n : Nat) : Bool := decide (n < 16)

/-- The number in STATUS (R22, R230). -/
def Status.code : Status → Byte
  | .ok => 0
  | .invalidKeySize => 1
  | .invalidNonceSize => 2
  | .shortInput => 3
  | .authenticationFailed => 4
  | .illegalCommand => 5

/-- The 4-bit encoding of PHASE (R26). -/
def Phase.code : Phase → BitVec 4
  | .start => 0
  | .keyValidated => 1
  | .invalidKey => 2
  | .nonceValidated => 3
  | .invalidNonce => 4
  | .tagOrIVDerived => 5
  | .keystreamApplied => 6
  | .verifyTag => 7
  | .done => 8

end Sys2Proof.Machine
end

