-- ==== Sys2Proof/Machine/Ops.lean ====
section
/-! DEFINITION. The writes every command shares: START clear (10_state.md R31), latching (R28, R87), `commit` with its
scrub (R30, R32), the entry of an error (60_exceptions.md R236), the move of PHASE (R12), and the run of a command along
its path (R27). -/

namespace Sys2Proof.Machine

/-- `PHASE <- p` (R12). -/
def toPhase (p : Phase) (s : State) : State := { s with phase := p }

/-- START clear (R31): the result registers are zero and PHASE is Start. The recorded oracle calls are those of this
command from here on. -/
def startClear (s : State) : State := { s with phase := .start, results := Results.zero, calls := [] }

/-- `commit(status, eq, out)` (R30): the atomic write of the result registers, the scrub of every operand and working
register (R32), and `PHASE <- Done`. -/
def commit (st : Status) (eq : Bool) (out : Bytes) (s : State) : State :=
  { s with phase := .done, results := ⟨st, eq, out.length, out⟩, operands := Operands.zero, working := Working.zero }

/-- `raise <Error>` (R236): the entry of every error. It commits the error's code with EQ 0 and nothing in DOUT, and
records nothing else (R238). The core is then in Done and takes the next START (R241): there is nothing to return to. -/
def raise (e : Status) (s : State) : State := commit e false [] s

/-- Records oracle calls made, in order (R67). -/
def record (cs : List OracleCall) (s : State) : State := { s with calls := s.calls ++ cs }

/-- Operand assembly (R87): what decoding a command puts into the operand registers; a field the format does not carry
leaves its register zero or empty (R28). -/
def operandsOf (i : Instr) : Operands :=
  let z := { Operands.zero with op := i.opcode.byte }
  let formatA (key nonce ad msg : Bytes) : Operands :=
    { z with key := key, klen := key.length, nonce := nonce, nlen := nonce.length, ad := ad, adlen := ad.length,
             msg := msg, mlen := msg.length }
  match i with
  | .dbl x => { z with a := x }
  | .pmul a b => { z with a := a, b := b }
  | .cteq a b => { z with a := a, b := b }
  | .clr => z
  | .cmacInit key => { z with key := key, klen := key.length }
  | .cmacSum key msg => { z with key := key, klen := key.length, msg := msg, mlen := msg.length }
  | .cmacSumm key msg mask => { z with key := key, klen := key.length, msg := msg, mlen := msg.length, b := mask }
  | .s2v key comps fin =>
    { z with key := key, klen := key.length, comp := comps, ncomp := comps.length, msg := fin, mlen := fin.length }
  | .sivEnc key nonce ad msg => formatA key nonce ad msg
  | .sivDec key nonce ad msg => formatA key nonce ad msg
  | .gsivDerive key nonce => { z with key := key, klen := key.length, nonce := nonce, nlen := nonce.length }
  | .pvHash h data => { z with a := h, msg := data, mlen := data.length }
  | .pvDigest authKey ad pt =>
    { z with a := authKey, ad := ad, adlen := ad.length, msg := pt, mlen := pt.length }
  | .gsivTag key nonce ad msg => formatA key nonce ad msg
  | .gsivEnc key nonce ad msg => formatA key nonce ad msg
  | .gsivDec key nonce ad msg => formatA key nonce ad msg

/-- An accepted START of a command: START clear (R31), then the latching of its fields (R28). -/
def accept (i : Instr) (s : State) : State := { startClear s with operands := operandsOf i }

/-- The descriptor does not decode (R89, R234): START clear, then IllegalCommand, with nothing latched. -/
def rejectDescriptor (s : State) : State := raise .illegalCommand (startClear s)

/-- The longest path of R27 after phase Start's own work: KeyValidated, NonceValidated, TagOrIVDerived,
KeystreamApplied, VerifyTag, Done are reached by at most this many moves (notes/assumptions/6.md). -/
def maxMoves : Nat := 6

/-- Runs a command along its path: `move` until Done. -/
def runToDone (move : State → Option State) : Nat → State → Host.Outcome State Fault Refusal
  | 0, s => if s.phase = .done then .next s else .fault .offPath
  | n + 1, s =>
    if s.phase = .done then .next s
    else
      match move s with
      | some t => runToDone move n t
      | none => .fault .offPath

end Sys2Proof.Machine
end

