-- ==== Sys2Proof/Machine/Gsiv.lean ====
section
/-! DEFINITION. The GCM-SIV subkey deriver, unit U6 part 1 (44_gcmsiv_kdf.md): the validation every GSIV command with a
master key shares, the derivation, and the command GSIV.DERIVE. -/

namespace Sys2Proof.Machine

/-! ### Values -/

/-- The counter block `u32le(i) || nonce` (R181). -/
def gsivCounterBlock (i : Nat) (nonce : Bytes) : Block := Block.ofBytes (u32le i ++ nonce)

/-- `half(i)`: the first 8 bytes of the cipher output on counter block `i`; the other 8 are discarded (R181, R183). -/
def gsivHalf (o : Oracles) (key nonce : Bytes) (i : Nat) : Bytes := (o.E key (gsivCounterBlock i nonce)).bytes.take 8

/-- `authKey = half(0) || half(1)` (R181). -/
def gsivAuthKey (o : Oracles) (key nonce : Bytes) : Block :=
  Block.ofBytes (gsivHalf o key nonce 0 ++ gsivHalf o key nonce 1)

/-- `encKey = half(2) || half(3) [|| half(4) || half(5)]`: 8 bytes an index, as many as fill the key's length (R181). -/
def gsivEncKey (o : Oracles) (key nonce : Bytes) : Bytes :=
  (List.range (key.length / 8)).flatMap fun j => gsivHalf o key nonce (j + 2)

/-- The calls of the derivation, in index order (R181, R185). -/
def gsivDeriveCalls (key nonce : Bytes) : List OracleCall :=
  (List.range (2 + key.length / 8)).map fun i => .bco key (gsivCounterBlock i nonce)

/-! ### Validation (R180) -/

/-- Phase Start: the key check. -/
def gsivKeyStart (s : State) : State :=
  if gsivKeyLen s.operands.klen then toPhase .keyValidated s else toPhase .invalidKey s

/-- Phase KeyValidated: the nonce check. -/
def gsivNonce (s : State) : State :=
  if gsivNonceLen s.operands.nlen then toPhase .nonceValidated s else toPhase .invalidNonce s

/-! ### The command -/

/-- AUTHKEY and ENCKEY from the master key and the nonce, with the calls recorded (R181). -/
def gsivDeriveKeys (o : Oracles) (s : State) : State :=
  let r := s.operands
  record (gsivDeriveCalls r.key r.nonce)
    { s with
      working := { s.working with authkey := gsivAuthKey o r.key r.nonce, enckey := gsivEncKey o r.key r.nonce } }

/-- The path of GSIV.DERIVE (R27, R182). -/
def moveGsivDerive (o : Oracles) (s : State) : Option State :=
  match s.phase with
  | .invalidKey => some (raise .invalidKeySize s)
  | .keyValidated => some (gsivNonce s)
  | .invalidNonce => some (raise .invalidNonceSize s)
  | .nonceValidated => some (toPhase .tagOrIVDerived (gsivDeriveKeys o s))
  | .tagOrIVDerived => some (commit .ok false (s.working.authkey.bytes ++ s.working.enckey) s)
  | _ => none

/-- GSIV.DERIVE (R182). -/
def execGsivDerive (key nonce : Bytes) (s : State) : Host.Outcome State Fault Refusal :=
  runToDone (moveGsivDerive Config.oracles) maxMoves (gsivKeyStart (accept (.gsivDerive key nonce) s))

end Sys2Proof.Machine
end

