-- ==== Sys2Proof/Machine/Field128.lean ====
section
/-! DEFINITION. The two GF(2^128) units (40_field128.md): the doubler U2, commands DBL, and the POLYVAL multiplier U1,
command PMUL. Their two readings of a Block are two types, so that a value of one cannot be given to the other
(20_memory.md R54). -/

namespace Sys2Proof.Machine

/-! ### The CMAC field: big-endian (R52) -/

/-- A Block read as a big-endian 128-bit integer (R52). -/
structure CmacField where
  val : BitVec 128
  deriving DecidableEq, Repr

/-- The big-endian reading. -/
def CmacField.ofBlock (b : Block) : CmacField := ⟨be128 b⟩

/-- The Block of a big-endian value. -/
def CmacField.toBlock (f : CmacField) : Block := ofBe128 f.val

/-- One bit to the left; 0x87 into the last byte if the input's top bit was set (R110). -/
def CmacField.double (f : CmacField) : CmacField :=
  ⟨(f.val <<< 1) ^^^ (if f.val.msb then 0x87 else 0)⟩

/-- The inverse of `double` (R113); no unit of the hardware, for test use. -/
def CmacField.halve (f : CmacField) : CmacField :=
  ⟨if f.val.getLsbD 0 then ((f.val ^^^ 0x87) >>> 1) ||| (1 <<< 127) else f.val >>> 1⟩

/-- `dbl(x)` (R110). -/
def dbl (x : Block) : Block := (CmacField.ofBlock x).double.toBlock

/-- `halve(y)` (R113). -/
def halve (y : Block) : Block := (CmacField.ofBlock y).halve.toBlock

/-! ### The POLYVAL field: two little-endian limbs (R53) -/

/-- A Block read as two little-endian 64-bit limbs; the coefficient of x^j is bit j of `lo + 2^64 * hi` (R53). -/
structure PolyvalField where
  lo : BitVec 64
  hi : BitVec 64
  deriving DecidableEq, Repr

/-- The little-endian reading (R53). -/
def PolyvalField.ofBlock (b : Block) : PolyvalField := ⟨le64 (b.bytes.take 8), le64 (b.bytes.drop 8)⟩

/-- The Block of two limbs: `u64le(lo) || u64le(hi)` (R117). -/
def PolyvalField.toBlock (f : PolyvalField) : Block := Block.ofBytes (u64le f.lo ++ u64le f.hi)

/-- `clmul64(a, b)`: the carry-less product of two limbs, unreduced (00_scope.md R11). -/
def clmul64 (a b : BitVec 64) : BitVec 128 :=
  (List.range 64).foldl (fun acc i => if b.getLsbD i then acc ^^^ (a.setWidth 128 <<< i) else acc) 0

/-- The 256-bit carry-less product by three limb products (R116). -/
def PolyvalField.product (a b : PolyvalField) : BitVec 256 :=
  let z0 := clmul64 a.lo b.lo
  let z2 := clmul64 a.hi b.hi
  let z1 := clmul64 (a.lo ^^^ a.hi) (b.lo ^^^ b.hi) ^^^ z0 ^^^ z2
  z0.setWidth 256 ^^^ (z1.setWidth 256 <<< 64) ^^^ (z2.setWidth 256 <<< 128)

/-- What the reduction adds to the limb above a cleared limb `t` (R117). -/
def foldUp (t : BitVec 64) : BitVec 64 := (t <<< 63) ^^^ (t <<< 62) ^^^ (t <<< 57)

/-- What the reduction adds to the second limb above a cleared limb `t` (R117). -/
def foldOver (t : BitVec 64) : BitVec 64 := t ^^^ (t >>> 1) ^^^ (t >>> 2) ^^^ (t >>> 7)

/-- The reduction: the two low limbs are folded upward and the two high limbs are the result (R117; 90_conflicts.md C1). -/
def reduce (t : BitVec 256) : PolyvalField :=
  let t0 := t.extractLsb' 0 64
  let t1 := t.extractLsb' 64 64 ^^^ foldUp t0
  let t2 := t.extractLsb' 128 64 ^^^ foldOver t0 ^^^ foldUp t1
  let t3 := t.extractLsb' 192 64 ^^^ foldOver t1
  ⟨t2, t3⟩

/-- The product of the POLYVAL field, `a * b * x^(-128) mod P` (R115), by R116 and R117. -/
def PolyvalField.dot (a b : PolyvalField) : PolyvalField := reduce (a.product b)

/-- `pmul(a, b)` (R115). -/
def pmul (a b : Block) : Block := ((PolyvalField.ofBlock a).dot (PolyvalField.ofBlock b)).toBlock

/-! ### The commands -/

/-- DBL in phase Start: `commit(Ok, 0, dbl(x[A]))` (R111). -/
def dblStart (s : State) : State := commit .ok false (dbl s.operands.a).bytes s

/-- DBL (R111). -/
def execDbl (x : Block) (s : State) : Host.Outcome State Fault Refusal := .next (dblStart (accept (.dbl x) s))

/-- PMUL in phase Start: `commit(Ok, 0, pmul(x[A], x[B]))` (R118). -/
def pmulStart (s : State) : State := commit .ok false (pmul s.operands.a s.operands.b).bytes s

/-- PMUL (R118). -/
def execPmul (a b : Block) (s : State) : Host.Outcome State Fault Refusal := .next (pmulStart (accept (.pmul a b) s))

end Sys2Proof.Machine
end

