-- ==== Sys2Proof/Machine/Cmac.lean ====
section
/-! DEFINITION. CMAC, unit U3 (41_cmac.md): the subkey deriver, the authenticator, the masked variant, and the commands
CMAC.INIT, CMAC.SUM and CMAC.SUMM. -/

namespace Sys2Proof.Machine

/-! ### Values -/

/-- A CMAC key with its subkeys: the triple (CK, K1, K2) of R130. -/
structure CmacKeys where
  ck : Bytes
  k1 : Block
  k2 : Block
  deriving DecidableEq, Repr

/-- `cmac_init(key)` (R131). -/
def cmacInit (o : Oracles) (key : Bytes) : CmacKeys :=
  let l := o.E key Block.zero
  ⟨key, dbl l, dbl (dbl l)⟩

/-- The last block is full: the length is a positive multiple of 16 (R133). -/
def fullLast (msg : Bytes) : Bool := decide (0 < msg.length) && msg.length % 16 == 0

/-- The number of non-final blocks (R133). -/
def cmacHeadCount (msg : Bytes) : Nat := if fullLast msg then msg.length / 16 - 1 else msg.length / 16

/-- The non-final blocks (R133). -/
def cmacHead (msg : Bytes) : List Block := blks msg (cmacHeadCount msg)

/-- The whitened final block: K1 on a full block, K2 on the padded tail (R133). -/
def cmacLast (c : CmacKeys) (msg : Bytes) : Block :=
  let n := msg.length
  if fullLast msg then (Block.ofBytes (memRead msg (n - 16) 16)).xor c.k1
  else (pad80 (msg.drop (16 * (n / 16)))).xor c.k2

/-- The chaining value after the non-final blocks, `x[X]` at the end of the loop of R133. -/
def cmacChain (o : Oracles) (c : CmacKeys) (msg : Bytes) : Block :=
  (cmacHead msg).foldl (fun x b => o.E c.ck (x.xor b)) Block.zero

/-- `cmac_sum(msg)` (R133). -/
def cmacSum (o : Oracles) (c : CmacKeys) (msg : Bytes) : Block :=
  o.E c.ck ((cmacChain o c msg).xor (cmacLast c msg))

/-- The message with its last 16 bytes XORed with the mask; unchanged if shorter (R136; 90_conflicts.md C2). -/
def maskLast (msg : Bytes) (mask : Block) : Bytes :=
  let n := msg.length
  if n ≥ 16 then msg.take (n - 16) ++ xorBytes (msg.drop (n - 16)) mask.bytes else msg

/-- `cmac_summ(msg, mask)` (R136). -/
def cmacSumm (o : Oracles) (c : CmacKeys) (msg : Bytes) (mask : Block) : Block := cmacSum o c (maskLast msg mask)

/-! ### Oracle calls, in order -/

/-- The calls of an XOR-chained run over the blocks, from the chaining value `x` (R133). -/
def chainCalls (o : Oracles) (ck : Bytes) : Block → List Block → List OracleCall
  | _, [] => []
  | x, b :: bs => .bco ck (x.xor b) :: chainCalls o ck (o.E ck (x.xor b)) bs

/-- The call of `cmac_init` (R131). -/
def cmacInitCalls (key : Bytes) : List OracleCall := [.bco key Block.zero]

/-- The calls of `cmac_sum` (R133): one a non-final block, then one for the final block. -/
def cmacSumCalls (o : Oracles) (c : CmacKeys) (msg : Bytes) : List OracleCall :=
  chainCalls o c.ck Block.zero (cmacHead msg ++ [cmacLast c msg])

/-! ### The commands -/

/-- The key check of phase Start for the CMAC commands and S2V (R139). -/
def bcoKeyStart (s : State) : State :=
  if bcoKeyLen s.operands.klen then toPhase .keyValidated s else toPhase .invalidKey s

/-- CMAC.INIT from KeyValidated to TagOrIVDerived (R132). -/
def cmacInitDerive (o : Oracles) (s : State) : State :=
  let c := cmacInit o s.operands.key
  record (cmacInitCalls s.operands.key)
    { s with phase := .tagOrIVDerived, working := { s.working with ck := c.ck, k1 := c.k1, k2 := c.k2 } }

/-- The path of CMAC.INIT (R27, R132). -/
def moveCmacInit (o : Oracles) (s : State) : Option State :=
  match s.phase with
  | .invalidKey => some (raise .invalidKeySize s)
  | .keyValidated => some (cmacInitDerive o s)
  | .tagOrIVDerived => some (commit .ok false (s.working.k1.bytes ++ s.working.k2.bytes) s)
  | _ => none

/-- CMAC.INIT (R132). -/
def execCmacInit (key : Bytes) (s : State) : Host.Outcome State Fault Refusal :=
  runToDone (moveCmacInit Config.oracles) maxMoves (bcoKeyStart (accept (.cmacInit key) s))

/-- From KeyValidated to TagOrIVDerived for a CMAC of `msg`: the instance, the chaining value, and the result in TAG
until Done (R135, R138; notes/assumptions/7.md). -/
def cmacDerive (o : Oracles) (msg : Bytes) (s : State) : State :=
  let c := cmacInit o s.operands.key
  record (cmacInitCalls s.operands.key ++ cmacSumCalls o c msg)
    { s with
      phase := .tagOrIVDerived
      working := { s.working with ck := c.ck, k1 := c.k1, k2 := c.k2, x := cmacChain o c msg, tag := cmacSum o c msg } }

/-- The path of CMAC.SUM (R27, R135). -/
def moveCmacSum (o : Oracles) (s : State) : Option State :=
  match s.phase with
  | .invalidKey => some (raise .invalidKeySize s)
  | .keyValidated => some (cmacDerive o s.operands.msg s)
  | .tagOrIVDerived => some (commit .ok false s.working.tag.bytes s)
  | _ => none

/-- CMAC.SUM (R135). -/
def execCmacSum (key msg : Bytes) (s : State) : Host.Outcome State Fault Refusal :=
  runToDone (moveCmacSum Config.oracles) maxMoves (bcoKeyStart (accept (.cmacSum key msg) s))

/-- The path of CMAC.SUMM (R27, R138). -/
def moveCmacSumm (o : Oracles) (s : State) : Option State :=
  match s.phase with
  | .invalidKey => some (raise .invalidKeySize s)
  | .keyValidated => some (cmacDerive o (maskLast s.operands.msg s.operands.b) s)
  | .tagOrIVDerived => some (commit .ok false s.working.tag.bytes s)
  | _ => none

/-- CMAC.SUMM (R138). -/
def execCmacSumm (key msg : Bytes) (mask : Block) (s : State) : Host.Outcome State Fault Refusal :=
  runToDone (moveCmacSumm Config.oracles) maxMoves (bcoKeyStart (accept (.cmacSumm key msg mask) s))

end Sys2Proof.Machine
end

