-- ==== Sys2Proof/Machine/S2v.lean ====
section
/-! DEFINITION. S2V, unit U4 (42_s2v.md): the fold over the components and the final step, and the command S2V. -/

namespace Sys2Proof.Machine

/-- The fold-start value `d0 = cmac_sum(zeros(16))` (R151). -/
def s2vStart (o : Oracles) (c : CmacKeys) : Block := cmacSum o c (zeros 16)

/-- The fold over the components, in list order (R151). -/
def s2vFold (o : Oracles) (c : CmacKeys) (comps : List Bytes) : Block :=
  comps.foldl (fun d t => (dbl d).xor (cmacSum o c t)) (s2vStart o c)

/-- The message of the final CMAC: masked with `d` if it has 16 bytes or more, else padded and XORed with `dbl(d)` (R152). -/
def s2vFinal (d : Block) (fin : Bytes) : Bytes :=
  if fin.length ≥ 16 then maskLast fin d else ((pad80 fin).xor (dbl d)).bytes

/-- The S2V value on a CMAC instance (R151, R152). -/
def s2vWith (o : Oracles) (c : CmacKeys) (comps : List Bytes) (fin : Bytes) : Block :=
  cmacSum o c (s2vFinal (s2vFold o c comps) fin)

/-- `s2v(macKey, components, finalMessage)` (R150 to R152). -/
def s2v (o : Oracles) (key : Bytes) (comps : List Bytes) (fin : Bytes) : Block := s2vWith o (cmacInit o key) comps fin

/-- The calls of `s2v`, in order: subkeys, `d0`, each component, the final message (R153). -/
def s2vCalls (o : Oracles) (key : Bytes) (comps : List Bytes) (fin : Bytes) : List OracleCall :=
  let c := cmacInit o key
  cmacInitCalls key ++ cmacSumCalls o c (zeros 16) ++ comps.flatMap (cmacSumCalls o c)
    ++ cmacSumCalls o c (s2vFinal (s2vFold o c comps) fin)

/-- The working registers an S2V run with key `key` leaves: the instance, the last chaining value and the accumulator
(R29, R130, R133, R151). -/
def s2vWorking (o : Oracles) (key : Bytes) (comps : List Bytes) (fin : Bytes) (w : Working) : Working :=
  let c := cmacInit o key
  let d := s2vFold o c comps
  { w with ck := c.ck, k1 := c.k1, k2 := c.k2, d := d, x := cmacChain o c (s2vFinal d fin) }

/-- S2V from KeyValidated to TagOrIVDerived; the result stands in TAG until Done (R153; notes/assumptions/7.md). -/
def s2vDerive (o : Oracles) (s : State) : State :=
  let r := s.operands
  record (s2vCalls o r.key r.comp r.msg)
    { s with
      phase := .tagOrIVDerived
      working := { s2vWorking o r.key r.comp r.msg s.working with tag := s2v o r.key r.comp r.msg } }

/-- The path of S2V (R27, R153). -/
def moveS2v (o : Oracles) (s : State) : Option State :=
  match s.phase with
  | .invalidKey => some (raise .invalidKeySize s)
  | .keyValidated => some (s2vDerive o s)
  | .tagOrIVDerived => some (commit .ok false s.working.tag.bytes s)
  | _ => none

/-- S2V (R153). -/
def execS2v (key : Bytes) (comps : List Bytes) (fin : Bytes) (s : State) : Host.Outcome State Fault Refusal :=
  runToDone (moveS2v Config.oracles) maxMoves (bcoKeyStart (accept (.s2v key comps fin) s))

end Sys2Proof.Machine
end

