-- ==== Sys2Proof/Machine/Siv.lean ====
section
/-! DEFINITION. The SIV mode controller, unit U5 (43_siv.md): SIV.ENC and SIV.DEC. -/

namespace Sys2Proof.Machine

/-! ### Values -/

/-- `macKey`: the first half of the key (R160). -/
def sivMacKey (key : Bytes) : Bytes := memRead key 0 (key.length / 2)

/-- `encKey`: the second half of the key (R160). -/
def sivEncKey (key : Bytes) : Bytes := memRead key (key.length / 2) (key.length - key.length / 2)

/-- The component list: nonce, then associated data, each left out when empty (R162). -/
def sivComps (nonce ad : Bytes) : List Bytes :=
  (if nonce.length > 0 then [nonce] else []) ++ (if ad.length > 0 then [ad] else [])

/-- `siv_seed(t)`: bit 7 of byte 8 and bit 7 of byte 12 cleared (R163). -/
def sivSeed (t : Block) : Block := Block.ofFn fun i => if i = 8 ∨ i = 12 then t.get i &&& 0x7f else t.get i

/-- The SIV tag of a plaintext (R164). -/
def sivTag (o : Oracles) (key nonce ad pt : Bytes) : Block := s2v o (sivMacKey key) (sivComps nonce ad) pt

/-- The keystream pass of SIV: `data XOR KS(encKey, siv_seed(tag), len, BE128)` (R164, R167). -/
def sivCrypt (o : Oracles) (key : Bytes) (tag : Block) (data : Bytes) : Bytes :=
  xorBytes data (o.KS (sivEncKey key) (sivSeed tag) data.length .be128)

/-! ### Shared steps of the two commands -/

/-- Phase Start: key validation and split (R160). -/
def sivStart (s : State) : State :=
  if sivKeyLen s.operands.klen then
    { s with
      phase := .keyValidated
      working := { s.working with mackey := sivMacKey s.operands.key, enckey := sivEncKey s.operands.key } }
  else toPhase .invalidKey s

/-- Every nonce is valid (R161). -/
def sivNonce (s : State) : State := toPhase .nonceValidated s

/-- The seed from TAG, then `data XOR keystream` into PTBUF (R163, R164, R167). -/
def sivKeystream (o : Oracles) (data : Bytes) (s : State) : State :=
  let seed := sivSeed s.working.tag
  record [.ctrks s.working.enckey seed data.length .be128]
    { s with
      phase := .keystreamApplied
      working :=
        { s.working with seed := seed, ptbuf := xorBytes data (o.KS s.working.enckey seed data.length .be128) } }

/-- Splitting a decrypt input: the short-input check, then TAG (R166). -/
def decSplit (s : State) : State :=
  { s with phase := .tagOrIVDerived, working := { s.working with tag := tagOf s.operands.msg } }

/-- VerifyTag: release PTBUF, or zero it and raise AuthenticationFailed (R167, R204; 60_exceptions.md R235). -/
def decVerify (s : State) : State :=
  if cteq s.working.expected s.working.tag then commit .ok true s.working.ptbuf s
  else
    raise .authenticationFailed
      { s with working := { s.working with ptbuf := zeros s.working.ptbuf.length } }

/-! ### SIV.ENC -/

/-- From NonceValidated to TagOrIVDerived: the tag over the plaintext (R164). -/
def sivEncTag (o : Oracles) (s : State) : State :=
  let r := s.operands
  let comps := sivComps r.nonce r.ad
  record (s2vCalls o s.working.mackey comps r.msg)
    { s with
      phase := .tagOrIVDerived
      working := { s2vWorking o s.working.mackey comps r.msg s.working with tag := s2v o s.working.mackey comps r.msg } }

/-- The path of SIV.ENC (R27, R164). -/
def moveSivEnc (o : Oracles) (s : State) : Option State :=
  match s.phase with
  | .invalidKey => some (raise .invalidKeySize s)
  | .keyValidated => some (sivNonce s)
  | .nonceValidated => some (sivEncTag o s)
  | .tagOrIVDerived => some (sivKeystream o s.operands.msg s)
  | .keystreamApplied => some (commit .ok false (s.working.ptbuf ++ s.working.tag.bytes) s)
  | _ => none

/-- SIV.ENC (R164). -/
def execSivEnc (key nonce ad msg : Bytes) (s : State) : Host.Outcome State Fault Refusal :=
  runToDone (moveSivEnc Config.oracles) maxMoves (sivStart (accept (.sivEnc key nonce ad msg) s))

/-! ### SIV.DEC -/

/-- From KeystreamApplied to VerifyTag: EXPECTED over the speculative plaintext (R167). -/
def sivDecExpect (o : Oracles) (s : State) : State :=
  let r := s.operands
  let comps := sivComps r.nonce r.ad
  let pt := s.working.ptbuf
  record (s2vCalls o s.working.mackey comps pt)
    { s with
      phase := .verifyTag
      working := { s2vWorking o s.working.mackey comps pt s.working with expected := s2v o s.working.mackey comps pt } }

/-- The path of SIV.DEC (R27, R167). -/
def moveSivDec (o : Oracles) (s : State) : Option State :=
  match s.phase with
  | .invalidKey => some (raise .invalidKeySize s)
  | .keyValidated => some (sivNonce s)
  | .nonceValidated => some (if shortInput s.operands.mlen then raise .shortInput s else decSplit s)
  | .tagOrIVDerived => some (sivKeystream o (ctOf s.operands.msg) s)
  | .keystreamApplied => some (sivDecExpect o s)
  | .verifyTag => some (decVerify s)
  | _ => none

/-- SIV.DEC (R167). -/
def execSivDec (key nonce ad msg : Bytes) (s : State) : Host.Outcome State Fault Refusal :=
  runToDone (moveSivDec Config.oracles) maxMoves (sivStart (accept (.sivDec key nonce ad msg) s))

end Sys2Proof.Machine
end

