-- ==== Sys2Proof/Machine/Polyval.lean ====
section
/-! DEFINITION. POLYVAL, the GCM-SIV tag generator and the mode sequencing, unit U6 part 2 (45_polyval_gcmsiv.md):
PV.HASH, PV.DIGEST, GSIV.TAG, GSIV.ENC and GSIV.DEC. -/

namespace Sys2Proof.Machine

/-! ### Values -/

/-- Absorbing one Block: `S <- pmul(S XOR X, H)` (R191). -/
def absorbBlock (h acc x : Block) : Block := pmul (acc.xor x) h

/-- Absorbing a byte string: its Blocks in order, the last one zero-padded (R191). -/
def absorb (h acc : Block) (t : Bytes) : Block :=
  (blks (zpad16 t) ((zpad16 t).length / 16)).foldl (absorbBlock h) acc

/-- `pv_hash(H, data)` (R192). -/
def pvHash (h : Block) (data : Bytes) : Block := absorb h Block.zero data

/-- The length Block: both lengths in bits, little-endian, modulo 2^64 (R196). -/
def lenBlk (ad pt : Bytes) : Block :=
  Block.ofBytes (u64le (BitVec.ofNat 64 (8 * ad.length)) ++ u64le (BitVec.ofNat 64 (8 * pt.length)))

/-- `pv_digest(authKey, ad, pt)` (R195). -/
def pvDigest (authKey : Block) (ad pt : Bytes) : Block :=
  absorbBlock authKey (absorb authKey (absorb authKey Block.zero ad) pt) (lenBlk ad pt)

/-- The digest with the nonce XORed into bytes 0..11 and bit 7 of byte 15 cleared: the input of the tag's cipher call
(R198). -/
def gsivTagInput (authKey : Block) (nonce ad pt : Bytes) : Block :=
  let h := pvDigest authKey ad pt
  Block.ofFn fun i =>
    if i < 12 then h.get i ^^^ nonce.getD i 0 else if i = 15 then h.get i &&& 0x7f else h.get i

/-- `gsiv_tag(authKey, encKey, nonce, ad, pt)` (R198). -/
def gsivTag (o : Oracles) (authKey : Block) (encKey nonce ad pt : Bytes) : Block :=
  o.E encKey (gsivTagInput authKey nonce ad pt)

/-- `gsiv_seed(t)`: bit 7 of byte 15 set (R200). -/
def gsivSeed (t : Block) : Block := Block.ofFn fun i => if i = 15 then t.get i ||| 0x80 else t.get i

/-- The keystream pass of GCM-SIV: `data XOR KS(encKey, gsiv_seed(tag), len, LE32)` (R201, R204). -/
def gsivCrypt (o : Oracles) (encKey : Bytes) (tag : Block) (data : Bytes) : Bytes :=
  xorBytes data (o.KS encKey (gsivSeed tag) data.length .le32)

/-! ### PV.HASH and PV.DIGEST -/

/-- PV.HASH in phase Start (R193). -/
def pvHashStart (s : State) : State := commit .ok false (pvHash s.operands.a s.operands.msg).bytes s

/-- PV.HASH (R193). -/
def execPvHash (h : Block) (data : Bytes) (s : State) : Host.Outcome State Fault Refusal :=
  .next (pvHashStart (accept (.pvHash h data) s))

/-- PV.DIGEST in phase Start (R197). -/
def pvDigestStart (s : State) : State :=
  commit .ok false (pvDigest s.operands.a s.operands.ad s.operands.msg).bytes s

/-- PV.DIGEST (R197). -/
def execPvDigest (authKey : Block) (ad pt : Bytes) (s : State) : Host.Outcome State Fault Refusal :=
  .next (pvDigestStart (accept (.pvDigest authKey ad pt) s))

/-! ### Shared steps of GSIV.TAG, GSIV.ENC and GSIV.DEC -/

/-- The tag of a plaintext under the derived keys, with the accumulator it leaves in S and its one call (R198). -/
def gsivTagNow (o : Oracles) (pt : Bytes) (s : State) : Block :=
  gsivTag o s.working.authkey s.working.enckey s.operands.nonce s.operands.ad pt

/-- S and the recorded call of a tag computation (R29, R198). -/
def gsivTagTrace (pt : Bytes) (s : State) : State :=
  record [.bco s.working.enckey (gsivTagInput s.working.authkey s.operands.nonce s.operands.ad pt)]
    { s with working := { s.working with s := pvDigest s.working.authkey s.operands.ad pt } }

/-- TAG over the plaintext, after the derivation (R199, R201). -/
def gsivEncTag (o : Oracles) (s : State) : State :=
  let t := gsivDeriveKeys o s
  let u := gsivTagTrace t.operands.msg t
  { u with phase := .tagOrIVDerived, working := { u.working with tag := gsivTagNow o t.operands.msg t } }

/-- The seed from TAG, then `data XOR keystream` into PTBUF (R200, R201, R204). -/
def gsivKeystream (o : Oracles) (data : Bytes) (s : State) : State :=
  let seed := gsivSeed s.working.tag
  record [.ctrks s.working.enckey seed data.length .le32]
    { s with
      phase := .keystreamApplied
      working :=
        { s.working with seed := seed, ptbuf := xorBytes data (o.KS s.working.enckey seed data.length .le32) } }

/-! ### GSIV.TAG -/

/-- The path of GSIV.TAG (R27, R199). -/
def moveGsivTag (o : Oracles) (s : State) : Option State :=
  match s.phase with
  | .invalidKey => some (raise .invalidKeySize s)
  | .keyValidated => some (gsivNonce s)
  | .invalidNonce => some (raise .invalidNonceSize s)
  | .nonceValidated => some (gsivEncTag o s)
  | .tagOrIVDerived => some (commit .ok false s.working.tag.bytes s)
  | _ => none

/-- GSIV.TAG (R199). -/
def execGsivTag (key nonce ad msg : Bytes) (s : State) : Host.Outcome State Fault Refusal :=
  runToDone (moveGsivTag Config.oracles) maxMoves (gsivKeyStart (accept (.gsivTag key nonce ad msg) s))

/-! ### GSIV.ENC -/

/-- The path of GSIV.ENC (R27, R201). -/
def moveGsivEnc (o : Oracles) (s : State) : Option State :=
  match s.phase with
  | .invalidKey => some (raise .invalidKeySize s)
  | .keyValidated => some (gsivNonce s)
  | .invalidNonce => some (raise .invalidNonceSize s)
  | .nonceValidated => some (gsivEncTag o s)
  | .tagOrIVDerived => some (gsivKeystream o s.operands.msg s)
  | .keystreamApplied => some (commit .ok false (s.working.ptbuf ++ s.working.tag.bytes) s)
  | _ => none

/-- GSIV.ENC (R201). -/
def execGsivEnc (key nonce ad msg : Bytes) (s : State) : Host.Outcome State Fault Refusal :=
  runToDone (moveGsivEnc Config.oracles) maxMoves (gsivKeyStart (accept (.gsivEnc key nonce ad msg) s))

/-! ### GSIV.DEC -/

/-- From KeystreamApplied to VerifyTag: EXPECTED over the speculative plaintext, under the keys derived once (R204). -/
def gsivDecExpect (o : Oracles) (s : State) : State :=
  let pt := s.working.ptbuf
  let u := gsivTagTrace pt s
  { u with phase := .verifyTag, working := { u.working with expected := gsivTagNow o pt s } }

/-- The path of GSIV.DEC (R27, R204). -/
def moveGsivDec (o : Oracles) (s : State) : Option State :=
  match s.phase with
  | .invalidKey => some (raise .invalidKeySize s)
  | .keyValidated => some (gsivNonce s)
  | .invalidNonce => some (raise .invalidNonceSize s)
  | .nonceValidated =>
    some (if shortInput s.operands.mlen then raise .shortInput s else gsivDeriveKeys o (decSplit s))
  | .tagOrIVDerived => some (gsivKeystream o (ctOf s.operands.msg) s)
  | .keystreamApplied => some (gsivDecExpect o s)
  | .verifyTag => some (decVerify s)
  | _ => none

/-- GSIV.DEC (R204). -/
def execGsivDec (key nonce ad msg : Bytes) (s : State) : Host.Outcome State Fault Refusal :=
  runToDone (moveGsivDec Config.oracles) maxMoves (gsivKeyStart (accept (.gsivDec key nonce ad msg) s))

end Sys2Proof.Machine
end

