-- ==== Sys2Proof/Machine/System.lean ====
section
/-! DEFINITION. The comparator command CTEQ and the housekeeping command CLR (46_comparator_system.md). -/

namespace Sys2Proof.Machine

/-- CTEQ in phase Start: `commit(Ok, cteq(x[A], x[B]), empty)` (R221). -/
def cteqStart (s : State) : State := commit .ok (cteq s.operands.a s.operands.b) [] s

/-- CTEQ (R221). -/
def execCteq (a b : Block) (s : State) : Host.Outcome State Fault Refusal := .next (cteqStart (accept (.cteq a b) s))

/-- CLR in phase Start: `commit(Ok, 0, empty)` (R224). -/
def clrStart (s : State) : State := commit .ok false [] s

/-- CLR (R224). -/
def execClr (s : State) : Host.Outcome State Fault Refusal := .next (clrStart (accept .clr s))

end Sys2Proof.Machine
end

