-- ==== Sys2Proof/Machine/Dispatch.lean ====
section
/-! DEFINITION. The meaning of each command, one arm a constructor. -/

namespace Sys2Proof.Machine

/-- An accepted command, from START to Done: START clear, latching, its path of phases, commit (10_state.md R27 to R32). -/
def exec (i : Instr) (s : State) : Host.Outcome State Fault Refusal :=
  match i with
  | .dbl x => Sys2Proof.Machine.execDbl x s
  | .pmul a b => Sys2Proof.Machine.execPmul a b s
  | .cteq a b => Sys2Proof.Machine.execCteq a b s
  | .clr => Sys2Proof.Machine.execClr s
  | .cmacInit key => Sys2Proof.Machine.execCmacInit key s
  | .cmacSum key msg => Sys2Proof.Machine.execCmacSum key msg s
  | .cmacSumm key msg mask => Sys2Proof.Machine.execCmacSumm key msg mask s
  | .s2v key comps fin => Sys2Proof.Machine.execS2v key comps fin s
  | .sivEnc key nonce ad msg => Sys2Proof.Machine.execSivEnc key nonce ad msg s
  | .sivDec key nonce ad msg => Sys2Proof.Machine.execSivDec key nonce ad msg s
  | .gsivDerive key nonce => Sys2Proof.Machine.execGsivDerive key nonce s
  | .pvHash h data => Sys2Proof.Machine.execPvHash h data s
  | .pvDigest authKey ad pt => Sys2Proof.Machine.execPvDigest authKey ad pt s
  | .gsivTag key nonce ad msg => Sys2Proof.Machine.execGsivTag key nonce ad msg s
  | .gsivEnc key nonce ad msg => Sys2Proof.Machine.execGsivEnc key nonce ad msg s
  | .gsivDec key nonce ad msg => Sys2Proof.Machine.execGsivDec key nonce ad msg s

end Sys2Proof.Machine
end

