-- ==== Sys2Proof/Machine/Sequencer.lean ====
section
/-! DEFINITION. The sequencer phase by phase (10_state.md R26, R27): the work of phase Start, and one move of a running
command. `exec` runs the same moves to Done; this file lets a host act between two of them (R261, R268). -/

namespace Sys2Proof.Machine

/-- The work of phase Start on a command just latched: the key check, or, on the path Start -> Done, the whole command
(R27). -/
def startWork : Opcode → State → State
  | .dbl => dblStart
  | .pmul => pmulStart
  | .cteq => cteqStart
  | .clr => clrStart
  | .cmacInit => bcoKeyStart
  | .cmacSum => bcoKeyStart
  | .cmacSumm => bcoKeyStart
  | .s2v => bcoKeyStart
  | .sivEnc => sivStart
  | .sivDec => sivStart
  | .gsivDerive => gsivKeyStart
  | .pvHash => pvHashStart
  | .pvDigest => pvDigestStart
  | .gsivTag => gsivKeyStart
  | .gsivEnc => gsivKeyStart
  | .gsivDec => gsivKeyStart

/-- The next state on a command's path, none where its path has no such phase (R27). -/
def moveOf (o : Oracles) : Opcode → State → Option State
  | .dbl => fun _ => none
  | .pmul => fun _ => none
  | .cteq => fun _ => none
  | .clr => fun _ => none
  | .cmacInit => moveCmacInit o
  | .cmacSum => moveCmacSum o
  | .cmacSumm => moveCmacSumm o
  | .s2v => moveS2v o
  | .sivEnc => moveSivEnc o
  | .sivDec => moveSivDec o
  | .gsivDerive => moveGsivDerive o
  | .pvHash => fun _ => none
  | .pvDigest => fun _ => none
  | .gsivTag => moveGsivTag o
  | .gsivEnc => moveGsivEnc o
  | .gsivDec => moveGsivDec o

/-- An accepted command up to the end of phase Start: START clear, latching, the work of phase Start. -/
def beginCommand (i : Instr) (s : State) : State := startWork i.opcode (accept i s)

/-- One move of the running command, which OP names (R26: PHASE "advances only along the paths of rule R27"). -/
def advance (o : Oracles) (s : State) : Host.Outcome State Fault Refusal :=
  match (opcodeOf s.operands.op).bind fun op => moveOf o op s with
  | some t => .next t
  | none => .fault .offPath

/-- A whole command over any collaborators `o` (00_scope.md R3: "A model takes both as parameters"). `exec` is this
function at the collaborators of Config; with the collaborators of Machine/Reference.lean it can be tested. -/
def execWith (o : Oracles) (i : Instr) (s : State) : Host.Outcome State Fault Refusal :=
  runToDone (moveOf o i.opcode) maxMoves (beginCommand i s)

end Sys2Proof.Machine
end

