-- ==== Sys2Proof/Machine/Port.lean ====
section
/-! DEFINITION. The host's side of the core (10_state.md R25, R31; 70_reset_and_hazards.md R260 to R269, R277): START,
waiting, reset, and what a host reads. -/

namespace Sys2Proof.Machine

/-- The result registers as a host reads them (R21 to R25). While BUSY they hold the START-cleared values (R31). -/
structure HostView where
  busy : Bool
  done : Bool
  status : Byte
  eq : Bool
  dlen : Nat
  dout : Bytes
  deriving DecidableEq, Repr

/-- What a host can read of a state, and nothing else (R25). -/
def State.hostView (s : State) : HostView :=
  ⟨s.busy, s.done, s.results.status.code, s.results.eq, s.results.dlen, s.results.dout⟩

/-- Byte `i` of DOUT: zero at offsets from DLEN on (R24). -/
def State.doutByte (s : State) (i : Nat) : Byte := s.results.dout.getD i 0

/-- The rest of the host's actions. -/
def State.withHost (h : List HostAct) (s : State) : State := { s with host := h }

/-- START while BUSY = 0, the host waiting for DONE: the command runs to completion (R66, R274). -/
def issue (desc : Bytes) (s : State) : Host.Outcome State Fault Refusal :=
  match decode desc with
  | .ok i => exec i s
  | .error _ => .next (rejectDescriptor s)

/-- START while BUSY = 0, the host not waiting: the core is left at the end of phase Start (notes/assumptions/6.md). -/
def present (desc : Bytes) (s : State) : State :=
  match decode desc with
  | .ok i => beginCommand i s
  | .error _ => rejectDescriptor s

/-- Time passes without a host action: a running command makes one move; an idle core stays as it is (R264). -/
def idle (s : State) : Host.Outcome State Fault Refusal :=
  if s.busy then advance Config.oracles s else .next s

/-- One host action on the core. A START while BUSY is ignored whole (R268); reset gives the reset state at any time
(R260, R261) and leaves the host's further actions. -/
def hostAct (a : HostAct) (s : State) : Host.Outcome State Fault Refusal :=
  match a with
  | .start desc => if s.busy then .next s else issue desc s
  | .present desc => if s.busy then .next s else .next (present desc s)
  | .wait => idle s
  | .reset => .next (State.reset.withHost s.host)

/-- The next host action is taken from the queue and acts; with no action queued, time passes. -/
def portStep (s : State) : Host.Outcome State Fault Refusal :=
  match s.host with
  | [] => idle s
  | a :: rest => hostAct a (s.withHost rest)

/-- `s` with BUSY = 0: where the core is BUSY, it is put into Done, so that the next START is accepted. -/
def State.idled (s : State) : State := if s.busy then toPhase .done s else s

end Sys2Proof.Machine
end

