-- ==== Sys2Proof/Machine/Step.lean ====
section
/-! DEFINITION. The step of the machine, and the placing of one instruction for it. -/

namespace Sys2Proof.Machine

/-- One step: the next host action (notes/assumptions/1.md). -/
def step (s : State) : Host.Outcome State Fault Refusal := portStep s

/-- `s` with the instruction whose bits are `w` as the descriptor of the host's next START. The core fetches nothing
(70_reset_and_hazards.md R264): the host's queue is where a step finds its next command; a START is accepted only while
BUSY = 0, so a running command is put to Done (notes/assumptions/17.md). -/
def State.withFetchWord (s : State) (nbits w : Nat) : State :=
  s.idled.withHost (.start (descriptorOfWord nbits w) :: s.host)

end Sys2Proof.Machine
end

