-- ==== Sys2Proof/Machine/Reference.lean ====
section
/-! DEFINITION. The reference instantiation of CTRKS over a block cipher (20_memory.md R65), and the two stand-in ciphers
of the test vectors (95_test_vectors.md section 3.1). `exec` uses none of these: it runs with the collaborators of Config. -/

namespace Sys2Proof.Machine

/-- The increment of the whole Block as one big-endian counter (R65). -/
def nextBe128 (c : Block) : Block := ofBe128 (be128 c + 1)

/-- The increment of bytes 0..3 as a little-endian 32-bit counter; bytes 4..15 never change (R65). -/
def nextLe32 (c : Block) : Block := Block.ofBytes (u32le ((le32 (c.bytes.take 4) + 1) % 2 ^ 32) ++ c.bytes.drop 4)

/-- `next(c)` of an increment kind (R65). -/
def nextCounter : Inc → Block → Block
  | .be128 => nextBe128
  | .le32 => nextLe32

/-- `c_j` (R65). -/
def counterBlock (inc : Inc) (seed : Block) : Nat → Block
  | 0 => seed
  | j + 1 => nextCounter inc (counterBlock inc seed j)

/-- The collaborators made of one block cipher: CTRKS is the first `n` bytes of `E(key, c_0) || E(key, c_1) || ...`
(R65). -/
def referenceOracles (cipher : Bytes → Block → Block) : Oracles where
  bcoByte key blk i := (cipher key blk).get i
  ctrksByte key seed _ inc i := (cipher key (counterBlock inc seed (i / 16))).get (i % 16)

/-- `fold(key)[i]`: the XOR of all key bytes whose index is `i` modulo 16 (95_test_vectors.md section 3.1). -/
def foldKey (key : Bytes) (i : Nat) : Byte :=
  (List.range key.length).foldl (fun acc j => if j % 16 = i then acc ^^^ key.getD j 0 else acc) 0

/-- TOY (95_test_vectors.md section 3.1). -/
def toyCipher (key : Bytes) (x : Block) : Block :=
  Block.ofFn fun i => (x.get ((i + 1) % 16) ^^^ foldKey key i) + BitVec.ofNat 8 (i + 1)

/-- CONST (95_test_vectors.md section 3.1). -/
def constCipher (_ : Bytes) (_ : Block) : Block := Block.zero

/-- The collaborators of the toy vectors. -/
def toyOracles : Oracles := referenceOracles toyCipher

/-- The collaborators of V-NEG-1. -/
def constOracles : Oracles := referenceOracles constCipher

end Sys2Proof.Machine
end

