-- ==== Sys2Proof/Safety.lean ====
section
/-! DEFINITION. The terms the claims are stated in: the state a command leaves, the paths of PHASE, the invariant of every
reachable state, counts of oracle calls, and Blocks as polynomials over GF(2). -/

namespace Sys2Proof.Machine

/-! ### The state a command leaves -/

/-- The state after the `commit` of a command that made the oracle calls `cs` (10_state.md R30, R32): Done, the result
registers as given, every operand and working register zero or empty, the host's queue as it was. Every field is given, so
a claim that a command answers this state says what it writes and that nothing else is left of it. -/
def finished (st : Status) (eq : Bool) (out : Bytes) (cs : List OracleCall) (s : State) : State where
  phase := .done
  results := { status := st, eq := eq, dlen := out.length, dout := out }
  operands := Operands.zero
  working := Working.zero
  calls := cs
  host := s.host

/-! ### Reachable states -/

/-- The phases a command passes through after phase Start, in order: the table of R27 with the length checks
of R231 to R233. A failed tag comparison takes the same phases: it shows in the step from VerifyTag to Done (R27). -/
def pathTaken : Instr → List Phase
  | .dbl _ => [.done]
  | .pmul _ _ => [.done]
  | .cteq _ _ => [.done]
  | .clr => [.done]
  | .cmacInit key => if bcoKeyLen key.length then [.keyValidated, .tagOrIVDerived, .done] else [.invalidKey, .done]
  | .cmacSum key _ => if bcoKeyLen key.length then [.keyValidated, .tagOrIVDerived, .done] else [.invalidKey, .done]
  | .cmacSumm key _ _ => if bcoKeyLen key.length then [.keyValidated, .tagOrIVDerived, .done] else [.invalidKey, .done]
  | .s2v key _ _ => if bcoKeyLen key.length then [.keyValidated, .tagOrIVDerived, .done] else [.invalidKey, .done]
  | .sivEnc key _ _ _ =>
    if sivKeyLen key.length then [.keyValidated, .nonceValidated, .tagOrIVDerived, .keystreamApplied, .done]
    else [.invalidKey, .done]
  | .sivDec key _ _ msg =>
    if !sivKeyLen key.length then [.invalidKey, .done]
    else if shortInput msg.length then [.keyValidated, .nonceValidated, .done]
    else [.keyValidated, .nonceValidated, .tagOrIVDerived, .keystreamApplied, .verifyTag, .done]
  | .gsivDerive key nonce =>
    if !gsivKeyLen key.length then [.invalidKey, .done]
    else if !gsivNonceLen nonce.length then [.keyValidated, .invalidNonce, .done]
    else [.keyValidated, .nonceValidated, .tagOrIVDerived, .done]
  | .pvHash _ _ => [.done]
  | .pvDigest _ _ _ => [.done]
  | .gsivTag key nonce _ _ =>
    if !gsivKeyLen key.length then [.invalidKey, .done]
    else if !gsivNonceLen nonce.length then [.keyValidated, .invalidNonce, .done]
    else [.keyValidated, .nonceValidated, .tagOrIVDerived, .done]
  | .gsivEnc key nonce _ _ =>
    if !gsivKeyLen key.length then [.invalidKey, .done]
    else if !gsivNonceLen nonce.length then [.keyValidated, .invalidNonce, .done]
    else [.keyValidated, .nonceValidated, .tagOrIVDerived, .keystreamApplied, .done]
  | .gsivDec key nonce _ msg =>
    if !gsivKeyLen key.length then [.invalidKey, .done]
    else if !gsivNonceLen nonce.length then [.keyValidated, .invalidNonce, .done]
    else if shortInput msg.length then [.keyValidated, .nonceValidated, .done]
    else [.keyValidated, .nonceValidated, .tagOrIVDerived, .keystreamApplied, .verifyTag, .done]

/-- The steps from `s` go through these phases, one a step. -/
def runsThrough : State → List Phase → Prop
  | _, [] => True
  | s, p :: ps => ∃ t, step s = .next t ∧ t.phase = p ∧ runsThrough t ps

/-- The result registers agree with each other: DLEN is the length of what DOUT holds and at most MAX_LEN + 16, and an
error leaves EQ 0 and DLEN 0 (10_state.md R23, R24, R30). -/
def Results.wf (r : Results) : Bool :=
  r.dlen == r.dout.length && decide (r.dlen ≤ Config.limits.maxLen + 16) &&
    (r.status == .ok || (!r.eq && r.dlen == 0))

/-- The invariant of every reachable state. -/
structure Inv (s : State) : Prop where
  /-- the result registers agree (R24, R30) -/
  results : s.results.wf = true
  /-- between commands every operand and working register is zero (R32) -/
  scrubbed : s.busy = false → s.operands = Operands.zero ∧ s.working = Working.zero
  /-- during a command the result registers hold the START-cleared values (R25, R31) -/
  cleared : s.busy = true → s.results = Results.zero
  /-- during a command the operand registers hold the fields of a command some descriptor carries, and PHASE is on the path
  its operand lengths choose: no phase past a failed check (R27, R28) -/
  latched : s.busy = true →
    ∃ i : Instr, i.wellFormed Config.limits = true ∧ s.operands = operandsOf i ∧ s.phase ∈ pathTaken i
  /-- CK, MACKEY, ENCKEY and PTBUF fit their registers (R29) -/
  fits : s.working.ck.length ≤ 32 ∧ s.working.mackey.length ≤ 32 ∧ s.working.enckey.length ≤ 32 ∧
    s.working.ptbuf.length ≤ Config.limits.maxLen
  /-- no oracle call is made in or before the validation phases (R27) -/
  noCalls : s.phase ∈ [Phase.keyValidated, .invalidKey, .nonceValidated, .invalidNonce] → s.calls = []

/-! ### Oracle calls -/

/-- The key an oracle call presents. -/
def OracleCall.key : OracleCall → Bytes
  | .bco key _ => key
  | .ctrks key _ _ _ => key

/-- A call on the BCO port. -/
def OracleCall.isBco : OracleCall → Bool
  | .bco _ _ => true
  | .ctrks _ _ _ _ => false

/-- BCO calls of one `cmac_sum` of `n` bytes: `max(1, ceil(n / 16))` (41_cmac.md R140). -/
def cmacWork (n : Nat) : Nat := max 1 ((n + 15) / 16)

/-- BCO calls of S2V on strings of these lengths: the subkeys, `d0`, the components, the final message
(70_reset_and_hazards.md R273). -/
def s2vWork (comps : List Nat) (fin : Nat) : Nat := 2 + (comps.map cmacWork).sum + cmacWork fin

/-- BCO calls of an SIV command with a nonce, associated data and plaintext of these lengths (43_siv.md R171). -/
def sivWork (nlen adlen m : Nat) : Nat :=
  2 + (if nlen > 0 then cmacWork nlen else 0) + (if adlen > 0 then cmacWork adlen else 0) + cmacWork m

/-- BCO calls of a command, from its opcode and operand LENGTHS alone (R140, R171, R185, R209, R273). -/
def bcoWork : Instr → Nat
  | .dbl _ => 0
  | .pmul _ _ => 0
  | .cteq _ _ => 0
  | .clr => 0
  | .cmacInit key => if bcoKeyLen key.length then 1 else 0
  | .cmacSum key msg => if bcoKeyLen key.length then 1 + cmacWork msg.length else 0
  | .cmacSumm key msg _ => if bcoKeyLen key.length then 1 + cmacWork msg.length else 0
  | .s2v key comps fin => if bcoKeyLen key.length then s2vWork (comps.map List.length) fin.length else 0
  | .sivEnc key nonce ad msg => if sivKeyLen key.length then sivWork nonce.length ad.length msg.length else 0
  | .sivDec key nonce ad msg =>
    if sivKeyLen key.length && !shortInput msg.length then sivWork nonce.length ad.length (msg.length - 16) else 0
  | .gsivDerive key nonce => if gsivKeyLen key.length && gsivNonceLen nonce.length then 2 + key.length / 8 else 0
  | .pvHash _ _ => 0
  | .pvDigest _ _ _ => 0
  | .gsivTag key nonce _ _ => if gsivKeyLen key.length && gsivNonceLen nonce.length then 3 + key.length / 8 else 0
  | .gsivEnc key nonce _ _ => if gsivKeyLen key.length && gsivNonceLen nonce.length then 3 + key.length / 8 else 0
  | .gsivDec key nonce _ msg =>
    if gsivKeyLen key.length && gsivNonceLen nonce.length && !shortInput msg.length then 3 + key.length / 8 else 0

/-- CTRKS calls of a command, from its opcode and operand lengths alone (R273). -/
def ctrksWork : Instr → Nat
  | .sivEnc key _ _ _ => if sivKeyLen key.length then 1 else 0
  | .sivDec key _ _ msg => if sivKeyLen key.length && !shortInput msg.length then 1 else 0
  | .gsivEnc key nonce _ _ => if gsivKeyLen key.length && gsivNonceLen nonce.length then 1 else 0
  | .gsivDec key nonce _ msg =>
    if gsivKeyLen key.length && gsivNonceLen nonce.length && !shortInput msg.length then 1 else 0
  | .dbl _ => 0
  | .pmul _ _ => 0
  | .cteq _ _ => 0
  | .clr => 0
  | .cmacInit _ => 0
  | .cmacSum _ _ => 0
  | .cmacSumm _ _ _ => 0
  | .s2v _ _ _ => 0
  | .gsivDerive _ _ => 0
  | .pvHash _ _ => 0
  | .pvDigest _ _ _ => 0
  | .gsivTag _ _ _ _ => 0

/-! ### Blocks as polynomials over GF(2) (20_memory.md R53) -/

/-- Bit `j` of a Block in the POLYVAL reading: bit `j mod 8` of byte `j div 8` (R53). -/
def coeffOf (b : Block) (j : Nat) : Bool := (b.get (j / 8)).getLsbD (j % 8)

/-- The polynomial of a Block: `sum of bit k of b[i] * x^(8i+k)` (R53). -/
noncomputable def polyOf (b : Block) : Polynomial (ZMod 2) :=
  ∑ j ∈ Finset.range 128, if coeffOf b j then Polynomial.X ^ j else 0

/-- `P = x^128 + x^127 + x^126 + x^121 + 1` (R6, R115). -/
noncomputable def polyvalP : Polynomial (ZMod 2) :=
  Polynomial.X ^ 128 + Polynomial.X ^ 127 + Polynomial.X ^ 126 + Polynomial.X ^ 121 + 1

end Sys2Proof.Machine
end

