-- ==== Sys2Proof/Certificates/Slice0/Obligations.lean ====
section
/-! DEFINITION. The statements for the provers. `finished st eq out cs s` (Safety.lean) gives EVERY field of the state a
command leaves: Done, the four result registers, every operand and working register zero, the oracle calls made, and the
host's queue unchanged; so each result statement is also the command's frame and its completion. -/

open Sys2Proof Sys2Proof.Machine

/-! ### Reset, START, the host port -/

/-- R34 (and R21, R26, R260): the value of every register after reset; DOUT reads zero everywhere. `calls` and `host` are
the model's own fields (notes/assumptions/1.md, 9.md) and nothing is said of them. -/
def Obligations.ResetStateIsAllZero : Prop :=
  State.reset.phase.code = 0 ∧ State.reset.busy = false ∧ State.reset.done = false ∧
  State.reset.results.status.code = 0 ∧ State.reset.results.eq = false ∧ State.reset.results.dlen = 0 ∧
  (∀ i, State.reset.doutByte i = 0) ∧
  State.reset.operands =
    { op := 0, a := Block.zero, b := Block.zero, key := [], klen := 0, nonce := [], nlen := 0,
      ad := [], adlen := 0, msg := [], mlen := 0, comp := [], ncomp := 0 } ∧
  State.reset.working =
    { ck := [], k1 := Block.zero, k2 := Block.zero, x := Block.zero, d := Block.zero, mackey := [],
      enckey := [], authkey := Block.zero, s := Block.zero, tag := Block.zero, expected := Block.zero,
      seed := Block.zero, ptbuf := [] }

/-- A step runs the decoded command: a START of a descriptor that decodes to `i`, while BUSY = 0, is `exec i` on the state
whose queue has lost that action. The queue is the model's own (notes/assumptions/1.md). -/
def Obligations.StepRunsTheDecodedCommand : Prop :=
  ∀ (s : State) (desc : Bytes) (rest : List HostAct) (i : Instr),
    s.host = .start desc :: rest → s.busy = false → decode desc = .ok i → step s = exec i (s.withHost rest)

/-- R234: an illegal descriptor ends in IllegalCommand, with no oracle call and nothing latched, whether or not the host
waits. That the host's actions stand in a queue is the model's own (notes/assumptions/1.md), here and below. -/
def Obligations.IllegalDescriptorEndsInIllegalCommand : Prop :=
  ∀ (s : State) (desc : Bytes) (rest : List HostAct) (e : Illegal),
    s.host = .start desc :: rest ∨ s.host = .present desc :: rest → s.busy = false → decode desc = .error e →
    step s = .next (finished .illegalCommand false [] [] (s.withHost rest))

/-- R268: a START while BUSY is ignored whole: it changes no register. That the running command also makes no move in that
step, so that the whole state stands still, is the model's choice (notes/assumptions/12.md). -/
def Obligations.StartWhileBusyIsIgnored : Prop :=
  ∀ (s : State) (desc : Bytes) (rest : List HostAct),
    s.host = .start desc :: rest ∨ s.host = .present desc :: rest → s.busy = true → step s = .next (s.withHost rest)

/-- R261, R260: reset, at any time, gives every register its value of R34; DONE is 0. That the history of oracle calls is
empty after it, though calls already made are not undone (R261), and that the host's further actions are kept are the
model's choices about its own fields (notes/assumptions/9.md, 13.md). -/
def Obligations.ResetAbandonsTheCommand : Prop :=
  ∀ (s : State) (rest : List HostAct), s.host = .reset :: rest →
    step s = .next { State.reset with host := rest } ∧ ({ State.reset with host := rest } : State).done = false

/-- R264: the core does nothing on its own between commands. -/
def Obligations.IdleCoreWaitsForTheHost : Prop :=
  ∀ s : State, s.busy = false →
    (s.host = [] → step s = .next s) ∧ ∀ rest, s.host = .wait :: rest → step s = .next (s.withHost rest)

/-- R87: the operand registers each command's descriptor fills; the others are zero or empty (R28). -/
def Obligations.LatchingFillsTheOperandRegisters : Prop :=
  let z (op : Byte) : Operands :=
    { op := op, a := Block.zero, b := Block.zero, key := [], klen := 0, nonce := [],
      nlen := 0, ad := [], adlen := 0, msg := [], mlen := 0, comp := [], ncomp := 0 }
  let formatA (op : Byte) (k n a m : Bytes) : Operands :=
    { z op with
      key := k, klen := k.length, nonce := n, nlen := n.length, ad := a, adlen := a.length, msg := m, mlen := m.length }
  (∀ x s, (accept (.dbl x) s).operands = { z 0x01 with a := x }) ∧
  (∀ x y s, (accept (.pmul x y) s).operands = { z 0x02 with a := x, b := y }) ∧
  (∀ x y s, (accept (.cteq x y) s).operands = { z 0x03 with a := x, b := y }) ∧
  (∀ s, (accept .clr s).operands = z 0x0F) ∧
  (∀ k s, (accept (.cmacInit k) s).operands = { z 0x10 with key := k, klen := k.length }) ∧
  (∀ k m s, (accept (.cmacSum k m) s).operands = { z 0x11 with key := k, klen := k.length, msg := m, mlen := m.length }) ∧
  (∀ k m b s, (accept (.cmacSumm k m b) s).operands =
    { z 0x12 with key := k, klen := k.length, msg := m, mlen := m.length, b := b }) ∧
  (∀ k cs f s, (accept (.s2v k cs f) s).operands =
    { z 0x20 with key := k, klen := k.length, comp := cs, ncomp := cs.length, msg := f, mlen := f.length }) ∧
  (∀ k n a m s, (accept (.sivEnc k n a m) s).operands = formatA 0x30 k n a m) ∧
  (∀ k n a m s, (accept (.sivDec k n a m) s).operands = formatA 0x31 k n a m) ∧
  (∀ k n s, (accept (.gsivDerive k n) s).operands =
    { z 0x40 with key := k, klen := k.length, nonce := n, nlen := n.length }) ∧
  (∀ h m s, (accept (.pvHash h m) s).operands = { z 0x41 with a := h, msg := m, mlen := m.length }) ∧
  (∀ h a m s, (accept (.pvDigest h a m) s).operands =
    { z 0x42 with a := h, ad := a, adlen := a.length, msg := m, mlen := m.length }) ∧
  (∀ k n a m s, (accept (.gsivTag k n a m) s).operands = formatA 0x43 k n a m) ∧
  (∀ k n a m s, (accept (.gsivEnc k n a m) s).operands = formatA 0x44 k n a m) ∧
  (∀ k n a m s, (accept (.gsivDec k n a m) s).operands = formatA 0x45 k n a m)

/-! ### Encoding -/

/-- A few descriptors written out byte by byte from R84 decode to the command they stand for. -/
def Obligations.WrittenOutDescriptorsDecode : Prop :=
  decode [0x0F] = .ok .clr ∧
  decode [0x01, 0x80, 0, 0, 0, 0, 0, 0, 0, 0, 0, 0, 0, 0, 0, 0, 0x01]
    = .ok (.dbl (Block.ofFn fun i => if i = 0 then 0x80 else if i = 15 then 0x01 else 0)) ∧
  decode [0x11, 2, 0, 0, 0, 0xAA, 0xBB, 1, 0, 0, 0, 0xCC] = .ok (.cmacSum [0xAA, 0xBB] [0xCC]) ∧
  decode [0x20, 1, 0, 0, 0, 0xAA, 2, 0, 0, 0, 1, 0, 0, 0, 0xB0, 0, 0, 0, 0, 1, 0, 0, 0, 0xCC]
    = .ok (.s2v [0xAA] [[0xB0], []] [0xCC]) ∧
  decode [0x31, 1, 0, 0, 0, 0x0A, 1, 0, 0, 0, 0x0B, 1, 0, 0, 0, 0x0C, 1, 0, 0, 0, 0x0D]
    = .ok (.sivDec [0x0A] [0x0B] [0x0C] [0x0D]) ∧
  decode [0x40, 0, 0, 0, 0, 1, 0, 0, 0, 0x0B] = .ok (.gsivDerive [] [0x0B]) ∧
  decode [0x11, 2, 0, 0, 0, 0xAA] = .error .truncated ∧ decode [0x0F, 0] = .error .trailingBytes

/-- Decoding the descriptor of a well-formed command gives the command back, every operand at every value its field
admits, under every MAX_LEN and MAX_COMP. -/
def Obligations.DecodeOfEncodeGivesTheCommand : Prop :=
  ∀ (lim : Limits) (i : Instr), i.wellFormed lim = true → decodeWith lim (encode i) = .ok i

/-- A descriptor that decodes is the one descriptor of its command, and the command is within the limits: each command has
one spelling, and no bit of a descriptor is unread. -/
def Obligations.EncodeOfDecodeGivesTheDescriptor : Prop :=
  ∀ (lim : Limits) (desc : Bytes) (i : Instr), decodeWith lim desc = .ok i → encode i = desc ∧ i.wellFormed lim = true

/-- R86: no other opcode is assigned; and R88: a length above MAX_LEN is refused in each STR field of each format, every
component of a LIST among them, and a count above MAX_COMP, whatever bytes follow. Which reason is named when a descriptor
is also too short for the length it announces is the model's choice (notes/assumptions/16.md); the spec has one verdict. -/
def Obligations.UnassignedAndOverlongAreIllegal : Prop :=
  ∀ lim : Limits,
    decodeWith lim [] = .error .empty ∧
    (∀ (b : Byte) (t : Bytes), b ∉ [0x01, 0x02, 0x03, 0x0F, 0x10, 0x11, 0x12, 0x20, 0x30, 0x31, 0x40, 0x41, 0x42, 0x43,
      0x44, 0x45] → decodeWith lim (b :: t) = .error .unassignedOpcode) ∧
    (∀ (n : Nat) (t : Bytes), lim.maxLen < n → n < 2 ^ 32 →
      let refused (front : Bytes) : Prop := decodeWith lim (front ++ u32le n ++ t) = .error .lengthAboveMaxLen
      ∀ (key nonce ad : Bytes) (x : Block), key.length ≤ lim.maxLen → nonce.length ≤ lim.maxLen →
        ad.length ≤ lim.maxLen →
        -- the first field of K, KM, KMB, KLM, KN and A
        (∀ op ∈ [0x10, 0x11, 0x12, 0x20, 0x30, 0x31, 0x40, 0x43, 0x44, 0x45], refused [op]) ∧
        -- the second field of KM, KMB, KN and A
        (∀ op ∈ [0x11, 0x12, 0x30, 0x31, 0x40, 0x43, 0x44, 0x45], refused (op :: encodeStr key)) ∧
        -- the third and the fourth field of A
        (∀ op ∈ [0x30, 0x31, 0x43, 0x44, 0x45],
          refused (op :: encodeStr key ++ encodeStr nonce) ∧
          refused (op :: encodeStr key ++ encodeStr nonce ++ encodeStr ad)) ∧
        -- the string of BM, the two strings of BMM
        refused (0x41 :: x.bytes) ∧ refused (0x42 :: x.bytes) ∧ refused (0x42 :: x.bytes ++ encodeStr ad) ∧
        -- a component of KLM, after those before it, and the final string
        ∀ comps : List Bytes, (∀ z ∈ comps, z.length ≤ lim.maxLen) →
          (∀ c, comps.length < c → c ≤ lim.maxComp →
            refused (0x20 :: encodeStr key ++ u32le c ++ comps.flatMap encodeStr)) ∧
          (comps.length ≤ lim.maxComp → refused (0x20 :: encodeStr key ++ encodeList comps))) ∧
    (∀ (key : Bytes) (c : Nat) (t : Bytes), key.length ≤ lim.maxLen → lim.maxComp < c → c < 2 ^ 32 →
      decodeWith lim (0x20 :: encodeStr key ++ u32le c ++ t) = .error .countAboveMaxComp)

/-- R88, R89: a descriptor cut short anywhere, or with anything after its last field, is illegal. -/
def Obligations.TruncatedOrTrailingIsIllegal : Prop :=
  ∀ (lim : Limits) (i : Instr), i.wellFormed lim = true →
    (∀ k, k < (encode i).length → ∃ e, decodeWith lim ((encode i).take k) = .error e) ∧
    (∀ (b : Byte) (t : Bytes), decodeWith lim (encode i ++ b :: t) = .error .trailingBytes)

/-! ### The commands: result, frame, oracle calls -/

/-- R111, R118, R224: DBL, PMUL and CLR, from every state. -/
def Obligations.LeafCommandsCommitTheirValue : Prop :=
  (∀ (x : Block) (s : State), exec (.dbl x) s = .next (finished .ok false (dbl x).bytes [] s)) ∧
  (∀ (a b : Block) (s : State), exec (.pmul a b) s = .next (finished .ok false (pmul a b).bytes [] s)) ∧
  (∀ s : State, exec .clr s = .next (finished .ok false [] [] s))

/-- R221, R220: CTEQ writes EQ 1 exactly on equal Blocks; STATUS is Ok either way. -/
def Obligations.CteqWritesEqualityToEq : Prop :=
  ∀ (a b : Block) (s : State), exec (.cteq a b) s = .next (finished .ok (decide (a = b)) [] [] s)

/-- R193, R197: PV.HASH and PV.DIGEST. -/
def Obligations.PolyvalCommandsCommitTheirHash : Prop :=
  (∀ (h : Block) (data : Bytes) (s : State),
    exec (.pvHash h data) s = .next (finished .ok false (pvHash h data).bytes [] s)) ∧
  (∀ (authKey : Block) (ad pt : Bytes) (s : State),
    exec (.pvDigest authKey ad pt) s = .next (finished .ok false (pvDigest authKey ad pt).bytes [] s))

/-- R132, R131: CMAC.INIT answers `K1 || K2` with `K1 = dbl(E(key, zeros(16)))`, `K2 = dbl(K1)`, by one oracle call. -/
def Obligations.CmacInitCommitsTheSubkeys : Prop :=
  ∀ (key : Bytes) (s : State), key.length = 16 ∨ key.length = 24 ∨ key.length = 32 →
    exec (.cmacInit key) s = .next (finished .ok false
      ((dbl (Config.oracles.E key Block.zero)).bytes ++ (dbl (dbl (Config.oracles.E key Block.zero))).bytes)
      [.bco key Block.zero] s)

/-- R135: CMAC.SUM. -/
def Obligations.CmacSumCommitsTheMac : Prop :=
  ∀ (key msg : Bytes) (s : State), key.length = 16 ∨ key.length = 24 ∨ key.length = 32 →
    exec (.cmacSum key msg) s = .next (finished .ok false
      (cmacSum Config.oracles (cmacInit Config.oracles key) msg).bytes
      (.bco key Block.zero :: cmacSumCalls Config.oracles (cmacInit Config.oracles key) msg) s)

/-- R138: CMAC.SUMM. -/
def Obligations.CmacSummCommitsTheMaskedMac : Prop :=
  ∀ (key msg : Bytes) (mask : Block) (s : State), key.length = 16 ∨ key.length = 24 ∨ key.length = 32 →
    exec (.cmacSumm key msg mask) s = .next (finished .ok false
      (cmacSumm Config.oracles (cmacInit Config.oracles key) msg mask).bytes
      (.bco key Block.zero :: cmacSumCalls Config.oracles (cmacInit Config.oracles key) (maskLast msg mask)) s)

/-- R153: S2V. -/
def Obligations.S2vCommitsTheSyntheticIv : Prop :=
  ∀ (key : Bytes) (comps : List Bytes) (fin : Bytes) (s : State),
    key.length = 16 ∨ key.length = 24 ∨ key.length = 32 →
    exec (.s2v key comps fin) s = .next (finished .ok false (s2v Config.oracles key comps fin).bytes
      (s2vCalls Config.oracles key comps fin) s)

/-- R164 (with R160 to R163): SIV.ENC answers `ct || tag`; the tag is S2V of the plaintext under the first key half, the
keystream is drawn under the second half from the tag with bit 7 of bytes 8 and 12 cleared; every nonce and every
associated data is accepted. -/
def Obligations.SivEncCommitsCiphertextAndTag : Prop :=
  ∀ (key nonce ad pt : Bytes) (s : State), key.length = 32 ∨ key.length = 64 →
    let mac := key.take (key.length / 2)
    let enc := key.drop (key.length / 2)
    let comps := (if nonce = [] then [] else [nonce]) ++ (if ad = [] then [] else [ad])
    let tag := s2v Config.oracles mac comps pt
    let ct := xorBytes pt (Config.oracles.KS enc (sivSeed tag) pt.length .be128)
    exec (.sivEnc key nonce ad pt) s = .next (finished .ok false (ct ++ tag.bytes)
      (s2vCalls Config.oracles mac comps pt ++ [.ctrks enc (sivSeed tag) pt.length .be128]) s)

/-- R167, both outcomes of VerifyTag: with `ct || tag` as input, the plaintext is released exactly when S2V of the
recovered plaintext is the received tag, all 128 bits (R168); otherwise AuthenticationFailed and nothing in DOUT. The
oracle calls are the same either way (R270). -/
def Obligations.SivDecReleasesOnlyOnTagMatch : Prop :=
  ∀ (key nonce ad ct : Bytes) (tag : Block) (s : State), key.length = 32 ∨ key.length = 64 →
    let mac := key.take (key.length / 2)
    let enc := key.drop (key.length / 2)
    let comps := (if nonce = [] then [] else [nonce]) ++ (if ad = [] then [] else [ad])
    let pt := xorBytes ct (Config.oracles.KS enc (sivSeed tag) ct.length .be128)
    let calls := .ctrks enc (sivSeed tag) ct.length .be128 :: s2vCalls Config.oracles mac comps pt
    (s2v Config.oracles mac comps pt = tag →
      exec (.sivDec key nonce ad (ct ++ tag.bytes)) s = .next (finished .ok true pt calls s)) ∧
    (s2v Config.oracles mac comps pt ≠ tag →
      exec (.sivDec key nonce ad (ct ++ tag.bytes)) s = .next (finished .authenticationFailed false [] calls s))

/-- R182: GSIV.DERIVE answers `authKey || encKey`, with the derivation calls in index order (R181). -/
def Obligations.GsivDeriveCommitsTheSubkeys : Prop :=
  ∀ (key nonce : Bytes) (s : State), key.length = 16 ∨ key.length = 32 → nonce.length = 12 →
    exec (.gsivDerive key nonce) s = .next (finished .ok false
      ((gsivAuthKey Config.oracles key nonce).bytes ++ gsivEncKey Config.oracles key nonce)
      ((List.range (2 + key.length / 8)).map fun j => .bco key (gsivCounterBlock j nonce)) s)

/-- R199: GSIV.TAG. -/
def Obligations.GsivTagCommitsTheTag : Prop :=
  ∀ (key nonce ad pt : Bytes) (s : State), key.length = 16 ∨ key.length = 32 → nonce.length = 12 →
    let authKey := gsivAuthKey Config.oracles key nonce
    let encKey := gsivEncKey Config.oracles key nonce
    exec (.gsivTag key nonce ad pt) s = .next (finished .ok false
      (gsivTag Config.oracles authKey encKey nonce ad pt).bytes
      (gsivDeriveCalls key nonce ++ [.bco encKey (gsivTagInput authKey nonce ad pt)]) s)

/-- R201: GSIV.ENC answers `ct || tag`; the keystream is drawn under encKey from the tag with bit 7 of byte 15 set. -/
def Obligations.GsivEncCommitsCiphertextAndTag : Prop :=
  ∀ (key nonce ad pt : Bytes) (s : State), key.length = 16 ∨ key.length = 32 → nonce.length = 12 →
    let authKey := gsivAuthKey Config.oracles key nonce
    let encKey := gsivEncKey Config.oracles key nonce
    let tag := gsivTag Config.oracles authKey encKey nonce ad pt
    let ct := xorBytes pt (Config.oracles.KS encKey (gsivSeed tag) pt.length .le32)
    exec (.gsivEnc key nonce ad pt) s = .next (finished .ok false (ct ++ tag.bytes)
      (gsivDeriveCalls key nonce ++ [.bco encKey (gsivTagInput authKey nonce ad pt),
        .ctrks encKey (gsivSeed tag) pt.length .le32]) s)

/-- R204, both outcomes of VerifyTag, as for SIV.DEC (R205). -/
def Obligations.GsivDecReleasesOnlyOnTagMatch : Prop :=
  ∀ (key nonce ad ct : Bytes) (tag : Block) (s : State), key.length = 16 ∨ key.length = 32 → nonce.length = 12 →
    let authKey := gsivAuthKey Config.oracles key nonce
    let encKey := gsivEncKey Config.oracles key nonce
    let pt := xorBytes ct (Config.oracles.KS encKey (gsivSeed tag) ct.length .le32)
    let calls := gsivDeriveCalls key nonce ++ [.ctrks encKey (gsivSeed tag) ct.length .le32,
      .bco encKey (gsivTagInput authKey nonce ad pt)]
    (gsivTag Config.oracles authKey encKey nonce ad pt = tag →
      exec (.gsivDec key nonce ad (ct ++ tag.bytes)) s = .next (finished .ok true pt calls s)) ∧
    (gsivTag Config.oracles authKey encKey nonce ad pt ≠ tag →
      exec (.gsivDec key nonce ad (ct ++ tag.bytes)) s = .next (finished .authenticationFailed false [] calls s))

/-! ### The errors -/

/-- R231: InvalidKeySize, detected in phase Start, before any oracle call, by way of phase InvalidKey, whatever the other
operands are (R237: first of the four). -/
def Obligations.WrongKeySizeIsRefused : Prop :=
  ∀ (key : Bytes) (s : State),
    let refused (i : Instr) : Prop :=
      exec i s = .next (finished .invalidKeySize false [] [] s) ∧ (beginCommand i s).phase = .invalidKey
    (key.length ≠ 16 → key.length ≠ 24 → key.length ≠ 32 →
      refused (.cmacInit key) ∧ (∀ msg, refused (.cmacSum key msg)) ∧ (∀ msg mask, refused (.cmacSumm key msg mask)) ∧
      ∀ comps fin, refused (.s2v key comps fin)) ∧
    (key.length ≠ 32 → key.length ≠ 64 → ∀ nonce ad msg,
      refused (.sivEnc key nonce ad msg) ∧ refused (.sivDec key nonce ad msg)) ∧
    (key.length ≠ 16 → key.length ≠ 32 → ∀ nonce ad msg,
      refused (.gsivDerive key nonce) ∧ refused (.gsivTag key nonce ad msg) ∧
      refused (.gsivEnc key nonce ad msg) ∧ refused (.gsivDec key nonce ad msg))

/-- R232: InvalidNonceSize for the four GSIV commands, detected in phase KeyValidated, before any oracle call, by way of
phase InvalidNonce, whatever the message is; the SIV commands never raise it. -/
def Obligations.WrongNonceSizeIsRefused : Prop :=
  (∀ (key nonce ad msg : Bytes) (s : State), key.length = 16 ∨ key.length = 32 → nonce.length ≠ 12 →
    let refused (i : Instr) : Prop :=
      exec i s = .next (finished .invalidNonceSize false [] [] s) ∧ (beginCommand i s).phase = .keyValidated ∧
      ∃ t, moveOf Config.oracles i.opcode (beginCommand i s) = some t ∧ t.phase = .invalidNonce
    refused (.gsivDerive key nonce) ∧ refused (.gsivTag key nonce ad msg) ∧
    refused (.gsivEnc key nonce ad msg) ∧ refused (.gsivDec key nonce ad msg)) ∧
  ∀ (key nonce ad msg : Bytes) (s t : State),
    exec (.sivEnc key nonce ad msg) s = .next t ∨ exec (.sivDec key nonce ad msg) s = .next t →
      t.results.status ≠ .invalidNonceSize

/-- R233: ShortInput for the two DEC commands on fewer than 16 bytes, detected in phase NonceValidated, before any oracle
call; 16 bytes and more are not short. -/
def Obligations.ShortInputIsRefused : Prop :=
  ∀ (key nonce ad msg : Bytes) (s : State),
    let refused (i : Instr) : Prop :=
      exec i s = .next (finished .shortInput false [] [] s) ∧
      ∃ t, moveOf Config.oracles i.opcode (beginCommand i s) = some t ∧ t.phase = .nonceValidated ∧
        moveOf Config.oracles i.opcode t = some (finished .shortInput false [] [] s)
    (msg.length < 16 → key.length = 32 ∨ key.length = 64 → refused (.sivDec key nonce ad msg)) ∧
    (msg.length < 16 → key.length = 16 ∨ key.length = 32 → nonce.length = 12 → refused (.gsivDec key nonce ad msg)) ∧
    (16 ≤ msg.length → ∀ t,
      exec (.sivDec key nonce ad msg) s = .next t ∨ exec (.gsivDec key nonce ad msg) s = .next t →
        t.results.status ≠ .shortInput)

/-! ### The units -/

/-- R110: the doubler, byte by byte; the carry into a byte comes from the next byte in index order, and 0x87 goes into
byte 15 if the input's top bit is 1; and the same on the big-endian number. -/
def Obligations.DblShiftsBytesAndReduces : Prop :=
  ∀ x : Block,
    (∀ i, i < 15 → (dbl x).get i = (x.get i <<< 1) ||| (x.get (i + 1) >>> 7)) ∧
    (dbl x).get 15 = (x.get 15 <<< 1) ^^^ (if (x.get 0).getLsbD 7 then 0x87 else 0) ∧
    be128 (dbl x) = (be128 x <<< 1) ^^^ (if (be128 x).msb then 0x87 else 0)

/-- R112, R113 (both derived in the spec): `halve(dbl(x)) = x`, `dbl(halve(y)) = y`, so `dbl` is a bijection; and `dbl` is
linear. -/
def Obligations.HalveUndoesDblAndDblIsLinear : Prop :=
  (∀ x : Block, halve (dbl x) = x) ∧ (∀ y : Block, dbl (halve y) = y) ∧
  (∀ a b : Block, dbl (a.xor b) = (dbl a).xor (dbl b))

/-- R115: `pmul(a, b)` is `a * b * x^(-128) mod P`: in GF(2)[x], `pmul(a, b) * x^128` and `a * b` differ by a multiple of
P. A Block's polynomial has degree below 128, so this fixes the value. The factor x^(-128) and the bit order are passages
the spec supplies from general knowledge (notes/assumptions/14.md, PRESUMED, unsafe). -/
def Obligations.PmulIsThePolyvalProduct : Prop :=
  ∀ a b : Block, polyvalP ∣ polyOf (pmul a b) * Polynomial.X ^ 128 - polyOf a * polyOf b

/-- R119 (derived in the spec) (1), (2), (3), (5): commutative, zero, bilinear, and the identity `01 00..00 c2`. -/
def Obligations.PmulLaws : Prop :=
  (∀ a b : Block, pmul a b = pmul b a) ∧ (∀ a : Block, pmul a Block.zero = Block.zero) ∧
  (∀ a b c : Block, pmul (a.xor c) b = (pmul a b).xor (pmul c b)) ∧
  (∀ a : Block, pmul a (Block.ofFn fun i => if i = 0 then 0x01 else if i = 15 then 0xC2 else 0) = a)

/-- R119 (6) (derived in the spec): associative. -/
def Obligations.PmulIsAssociative : Prop := ∀ a b c : Block, pmul (pmul a b) c = pmul a (pmul b c)

/-- R133: CMAC of whole blocks followed by a full last block whitens it with K1; of whole blocks followed by a tail of 0
to 15 bytes (not both some blocks and an empty tail) pads the tail and whitens it with K2; the blocks are XOR-chained. The
oracle calls in order: call j presents the chaining value before it XOR block j, the last one the chaining value XOR the
whitened final block; `max(1, ceil(n / 16))` calls, all with CK. -/
def Obligations.CmacChainsAndWhitens : Prop :=
  ∀ (o : Oracles) (c : CmacKeys) (bs : List Block),
    let chainTo (j : Nat) : Block := (bs.take j).foldl (fun x b => o.E c.ck (x.xor b)) Block.zero
    let headCalls := (List.range bs.length).map fun j => OracleCall.bco c.ck ((chainTo j).xor (bs.getD j Block.zero))
    (∀ last : Block,
      let final := (chainTo bs.length).xor (last.xor c.k1)
      cmacSum o c (bs.flatMap Block.bytes ++ last.bytes) = o.E c.ck final ∧
      cmacSumCalls o c (bs.flatMap Block.bytes ++ last.bytes) = headCalls ++ [.bco c.ck final]) ∧
    (∀ tail : Bytes, tail.length < 16 → (bs = [] ∨ tail ≠ []) →
      let final := (chainTo bs.length).xor ((pad80 tail).xor c.k2)
      cmacSum o c (bs.flatMap Block.bytes ++ tail) = o.E c.ck final ∧
      cmacSumCalls o c (bs.flatMap Block.bytes ++ tail) = headCalls ++ [.bco c.ck final]) ∧
    ∀ msg : Bytes, (cmacSumCalls o c msg).length = max 1 ((msg.length + 15) / 16) ∧
      ∀ call ∈ cmacSumCalls o c msg, ∃ blk, call = .bco c.ck blk

/-- R136: the masked variant is `cmac_sum` of `maskLast msg mask`, the message whose LAST 16 BYTES are XORed with the mask,
whatever the length; below 16 bytes the mask is not used. Masking the last 16 bytes where the length is no multiple of 16
is a passage the spec supplies from general knowledge (its G6 and C2; notes/assumptions/14.md, PRESUMED, unsafe). -/
def Obligations.CmacSummMasksTheLastSixteenBytes : Prop :=
  ∀ (o : Oracles) (c : CmacKeys) (msg : Bytes) (mask : Block),
    cmacSumm o c msg mask = cmacSum o c (maskLast msg mask) ∧ (maskLast msg mask).length = msg.length ∧
    (msg.length < 16 → maskLast msg mask = msg) ∧
    (16 ≤ msg.length → ∀ i, i < msg.length → (maskLast msg mask).getD i 0 =
      if i < msg.length - 16 then msg.getD i 0 else msg.getD i 0 ^^^ mask.get (i - (msg.length - 16)))

/-- R151, R152: the fold starts from CMAC of sixteen zero bytes, which is `E(key, K1)`, takes the components in list order,
and the final step masks with `d` or pads and XORs with `dbl(d)`. The oracle calls in the order of R153: the subkey call,
`d0`, the components in list order, the final message, which is one call in the short branch. -/
def Obligations.S2vFoldsInListOrder : Prop :=
  ∀ (o : Oracles) (key : Bytes) (comps : List Bytes) (last fin : Bytes),
    let c := cmacInit o key
    let d := s2vFold o c comps
    let front := [OracleCall.bco key Block.zero, .bco key c.k1] ++ comps.flatMap (cmacSumCalls o c)
    s2vFold o c [] = cmacSum o c (zeros 16) ∧ cmacSum o c (zeros 16) = o.E key c.k1 ∧
    s2vFold o c (comps ++ [last]) = (dbl d).xor (cmacSum o c last) ∧
    (16 ≤ fin.length → s2v o key comps fin = cmacSumm o c fin d ∧
      s2vCalls o key comps fin = front ++ cmacSumCalls o c (maskLast fin d)) ∧
    (fin.length < 16 → s2v o key comps fin = cmacSum o c ((pad80 fin).xor (dbl d)).bytes ∧
      s2vCalls o key comps fin = front ++ [.bco key (((pad80 fin).xor (dbl d)).xor c.k1)])

/-- R155: in the fold, component `i` of `c` is doubled `c - 1 - i` times and the start value `E(key, K1)` `c` times, and
these are XORed: the place of a component is part of the value. Whether two orders then give two tags is a property of
the cipher (R275): they do with the toy cipher on V-S2V-T-9 and V-S2V-T-10, they never do with the constant cipher
(V-NEG-1). -/
def Obligations.S2vWeighsComponentsByTheirPlace : Prop :=
  (∀ (o : Oracles) (key : Bytes) (comps : List Bytes),
    let c := cmacInit o key
    let n := comps.length
    s2vFold o c comps = (List.range n).foldl
      (fun acc i => acc.xor (dbl^[n - 1 - i] (cmacSum o c (comps.getD i [])))) (dbl^[n] (o.E key c.k1))) ∧
  (let key : Bytes := [0, 1, 2, 3, 4, 5, 6, 7, 8, 9, 10, 11, 12, 13, 14, 15]
    let a : Bytes := [0xA0, 0xA1, 0xA2, 0xA3, 0xA4]
    let b : Bytes := [0xB0, 0xB1, 0xB2, 0xB3, 0xB4, 0xB5, 0xB6, 0xB7, 0xB8, 0xB9, 0xBA, 0xBB, 0xBC, 0xBD, 0xBE, 0xBF,
      0xC0, 0xC1, 0xC2, 0xC3]
    s2v toyOracles key [a, b] [0, 1, 2, 3, 4, 5, 6] ≠ s2v toyOracles key [b, a] [0, 1, 2, 3, 4, 5, 6]) ∧
  ∀ (key : Bytes) (comps : List Bytes) (fin : Bytes), s2v constOracles key comps fin = Block.zero

/-- R163, R200: the seed bits, and that no other bit of the tag changes. -/
def Obligations.SeedsChangeOnlyTheirBits : Prop :=
  ∀ (t : Block) (i k : Nat), i < 16 → k < 8 →
    ((sivSeed t).get i).getLsbD k = (if (i = 8 ∨ i = 12) ∧ k = 7 then false else (t.get i).getLsbD k) ∧
    ((gsivSeed t).get i).getLsbD k = (if i = 15 ∧ k = 7 then true else (t.get i).getLsbD k)

/-- R181: the counter blocks `u32le(i) || nonce`, the subkeys as the first 8 bytes of one cipher output each (R183), and
the 4 or 6 calls, in index order. -/
def Obligations.GsivSubkeysAreHalvesOfCipherOutputs : Prop :=
  ∀ (o : Oracles) (key nonce : Bytes), key.length = 16 ∨ key.length = 32 → nonce.length = 12 →
    let half (j : Nat) : Bytes := (o.E key (gsivCounterBlock j nonce)).bytes.take 8
    (∀ j, j < 6 → (gsivCounterBlock j nonce).bytes = [BitVec.ofNat 8 j, 0, 0, 0] ++ nonce) ∧
    (gsivAuthKey o key nonce).bytes = half 0 ++ half 1 ∧
    gsivEncKey o key nonce =
      (if key.length = 16 then half 2 ++ half 3 else half 2 ++ half 3 ++ half 4 ++ half 5) ∧
    gsivDeriveCalls key nonce =
      (List.range (if key.length = 16 then 4 else 6)).map fun j => .bco key (gsivCounterBlock j nonce)

/-- R191, R192: the accumulator starts at zero and absorbs Blocks by `pmul(S XOR X, H)`; a partial last Block counts as
zero-padded. The zero start value and the absorb step are passages the spec supplies from general knowledge (its G3 and G4;
notes/assumptions/14.md, PRESUMED, unsafe). -/
def Obligations.PolyvalAbsorbsPaddedBlocks : Prop :=
  ∀ (h : Block) (bs : List Block) (tail : Bytes),
    pvHash h (bs.flatMap Block.bytes) = bs.foldl (fun acc x => pmul (acc.xor x) h) Block.zero ∧
    (0 < tail.length → tail.length < 16 →
      pvHash h (bs.flatMap Block.bytes ++ tail)
        = pmul ((pvHash h (bs.flatMap Block.bytes)).xor (Block.ofBytes (tail ++ zeros (16 - tail.length)))) h)

/-- R195, R196: the digest is the hash of the separately padded strings and the length Block, which holds both lengths in
bits, little-endian. -/
def Obligations.PolyvalDigestPadsSeparatelyAndAppendsLengths : Prop :=
  ∀ (authKey : Block) (ad pt : Bytes),
    pvDigest authKey ad pt = pvHash authKey (zpad16 ad ++ zpad16 pt ++ (lenBlk ad pt).bytes) ∧
    ∀ i, i < 8 → (lenBlk ad pt).get i = BitVec.ofNat 8 (8 * ad.length / 256 ^ i) ∧
      (lenBlk ad pt).get (8 + i) = BitVec.ofNat 8 (8 * pt.length / 256 ^ i)

/-- R198: the nonce goes into bytes 0..11 of the digest, bit 7 of byte 15 is cleared, then one cipher call. -/
def Obligations.GsivTagMasksTheDigest : Prop :=
  ∀ (o : Oracles) (authKey : Block) (encKey nonce ad pt : Bytes), nonce.length = 12 → ∃ h : Block,
    gsivTag o authKey encKey nonce ad pt = o.E encKey h ∧
    (∀ i, i < 12 → h.get i = (pvDigest authKey ad pt).get i ^^^ nonce.getD i 0) ∧
    (∀ i, 12 ≤ i → i < 15 → h.get i = (pvDigest authKey ad pt).get i) ∧
    ∀ k, k < 8 → (h.get 15).getLsbD k = (decide (k ≠ 7) && ((pvDigest authKey ad pt).get 15).getLsbD k)

/-- R58, R59: the two paddings. -/
def Obligations.PaddingAppendsMarkerAndZeros : Prop :=
  ∀ t : Bytes,
    (t.length ≤ 15 → (pad80 t).bytes = t ++ 0x80 :: zeros (15 - t.length)) ∧
    (∃ k, k < 16 ∧ zpad16 t = t ++ zeros k ∧ (zpad16 t).length % 16 = 0)

/-- R65: the reference CTRKS is the cipher on successive counter blocks; BE128 counts the whole Block, LE32 counts bytes
0..3 and leaves bytes 4..15. (The spec marks both increments as general knowledge; no statement about `exec` rests on
them.) -/
def Obligations.ReferenceKeystreamCounts : Prop :=
  ∀ (cipher : Bytes → Block → Block) (key : Bytes) (seed : Block) (inc : Inc) (n : Nat),
    (referenceOracles cipher).KS key seed n inc =
      ((List.range ((n + 15) / 16)).flatMap fun j => (cipher key (counterBlock inc seed j)).bytes).take n ∧
    be128 (nextCounter .be128 seed) = be128 seed + 1 ∧
    le32 ((nextCounter .le32 seed).bytes.take 4) = (le32 (seed.bytes.take 4) + 1) % 2 ^ 32 ∧
    (nextCounter .le32 seed).bytes.drop 4 = seed.bytes.drop 4

/-! ### Whole-machine rules -/

/-- R170 (derived in the spec): whatever SIV.ENC answers, SIV.DEC with the same key, nonce and associated data gives the
plaintext back, with EQ 1. -/
def Obligations.SivRoundTrip : Prop :=
  ∀ (key nonce ad pt : Bytes) (s s' t : State), key.length = 32 ∨ key.length = 64 →
    exec (.sivEnc key nonce ad pt) s = .next t →
    ∃ cs, exec (.sivDec key nonce ad t.results.dout) s' = .next (finished .ok true pt cs s')

/-- R207 (derived in the spec): the same for GCM-SIV. -/
def Obligations.GsivRoundTrip : Prop :=
  ∀ (key nonce ad pt : Bytes) (s s' t : State), key.length = 16 ∨ key.length = 32 → nonce.length = 12 →
    exec (.gsivEnc key nonce ad pt) s = .next t →
    ∃ cs, exec (.gsivDec key nonce ad t.results.dout) s' = .next (finished .ok true pt cs s')

/-- R33 (derived in the spec), R243: every command completes from every state, and what it leaves depends on the command
alone; the host's queue is unchanged. -/
def Obligations.ResultDependsOnTheCommandOnly : Prop :=
  ∀ (i : Instr), ∃ t : State, t.phase = .done ∧ t.operands = Operands.zero ∧ t.working = Working.zero ∧
    ∀ s : State, exec i s = .next (t.withHost s.host)

/-- R275, R35: a DEC command that leaves anything in DOUT, or EQ 1, has status Ok and has recomputed the received tag from
what it leaves in DOUT. -/
def Obligations.NoPlaintextWithoutVerification : Prop :=
  ∀ (key nonce ad msg : Bytes) (s t : State),
    (exec (.sivDec key nonce ad msg) s = .next t → t.results.dout ≠ [] ∨ t.results.eq = true →
      t.results.status = .ok ∧ t.results.eq = true ∧
      sivTag Config.oracles key nonce ad t.results.dout = tagOf msg) ∧
    (exec (.gsivDec key nonce ad msg) s = .next t → t.results.dout ≠ [] ∨ t.results.eq = true →
      t.results.status = .ok ∧ t.results.eq = true ∧
      gsivTag Config.oracles (gsivAuthKey Config.oracles key nonce) (gsivEncKey Config.oracles key nonce) nonce ad
        t.results.dout = tagOf msg)

/-- R140, R171, R185, R209 (derived in the spec), R271: the numbers of BCO and of CTRKS calls are functions of the opcode
and the operand lengths, never of operand values, and so the same whether a tag verifies or not (R270). -/
def Obligations.OracleCallCountsDependOnLengthsOnly : Prop :=
  ∀ (i : Instr) (s t : State), exec i s = .next t →
    t.calls.countP OracleCall.isBco = bcoWork i ∧ t.calls.countP (fun c => !c.isBco) = ctrksWork i

/-- R62: the core never presents a key of another length than 16, 24 or 32 to an oracle. -/
def Obligations.OracleKeysHaveCipherLengths : Prop :=
  ∀ (i : Instr) (s t : State), exec i s = .next t → ∀ c ∈ t.calls,
    c.key.length = 16 ∨ c.key.length = 24 ∨ c.key.length = 32

/-- The reset state meets the invariant of Safety.lean. -/
def Obligations.ResetMeetsTheInvariant : Prop := Inv State.reset

/-- Every step keeps the invariant, from every state that meets it and for every host action: result registers agree,
scrubbed between commands, START-cleared and on path during one, no oracle call in a validation phase. -/
def Obligations.StepKeepsTheInvariant : Prop := ∀ s t : State, Inv s → step s = .next t → Inv t

/-- R243 (derived in the spec): from a state that meets the invariant the step always answers a next state: nothing hangs,
faults or is refused. -/
def Obligations.StepNeverStops : Prop := ∀ s : State, Inv s → ∃ t, step s = .next t

/-- R243 (derived in the spec), R27: a running command left alone reaches Done within five moves. -/
def Obligations.RunningCommandReachesDone : Prop :=
  ∀ s : State, Inv s → s.busy = true → s.host = [] → ∃ t, Sys2Proof.core.run 5 s = .next t ∧ t.phase = .done

/-- R27, R26: after a START that is not waited for, the steps go through exactly the phases of the command's path, in
order. That one step is one phase is the model's choice (notes/assumptions/6.md). -/
def Obligations.PhasesFollowThePathOfTheCommand : Prop :=
  ∀ (i : Instr) (s : State), i.wellFormed Config.limits = true → s.busy = false →
    runsThrough (s.withHost [.present (encode i)]) (pathTaken i)

/-- The atomic command is the phase-by-phase command run to its end (R27: "A model may execute a whole command as one
atomic step"): presenting a descriptor and waiting five phases gives the state that START and waiting for DONE gives. How
fine a host may act is the model's choice (notes/assumptions/1.md, 6.md). -/
def Obligations.AtomicCommandIsItsPhasesRunToDone : Prop :=
  ∀ (s : State) (desc : Bytes), s.busy = false →
    Sys2Proof.core.run 6 (s.withHost (.present desc :: List.replicate 5 .wait)) = step (s.withHost [.start desc])

/-- R25, R31: after any step from a state that meets the invariant, a BUSY core shows the host the START-cleared values
and nothing else: BUSY 1, DONE 0, STATUS 0, EQ 0, DLEN 0, DOUT zero. -/
def Obligations.BusyCoreShowsClearedResults : Prop :=
  ∀ s t : State, Inv s → step s = .next t → t.busy = true →
    t.hostView = { busy := true, done := false, status := 0, eq := false, dlen := 0, dout := [] } ∧
    ∀ i, t.doutByte i = 0
end

