-- ==== Sys2Proof/Laws/Block.lean ====
section
/-! SUPPORT. The small lemmas of Blocks, byte strings and the two oracle ports. -/

namespace Sys2Proof

namespace Block

@[simp] theorem length_bytes (b : Block) : b.bytes.length = 16 := b.length_eq

@[simp] theorem get_ofFn (f : Nat → Byte) {i : Nat} (h : i < 16) : (ofFn f).get i = f i := by
  simp [get, ofFn, List.getD_eq_getElem?_getD, h]

theorem eq_of_bytes {a b : Block} (h : a.bytes = b.bytes) : a = b := by
  cases a; cases b; simp_all

/-- Two Blocks are equal when their sixteen bytes are. -/
theorem ext_get {a b : Block} (h : ∀ i, i < 16 → a.get i = b.get i) : a = b := by
  apply eq_of_bytes
  apply List.ext_getElem (by simp)
  intro i h1 h2
  have hi : i < 16 := by simpa using h1
  have := h i hi
  simpa [get, List.getD_eq_getElem?_getD, hi] using this

@[simp] theorem ofFn_get (b : Block) : ofFn b.get = b := ext_get fun i hi => by simp [hi]

@[simp] theorem zero_get (i : Nat) : zero.get i = 0 := by
  by_cases h : i < 16
  · simp [zero, h]
  · simp [get, List.getD_eq_getElem?_getD, h]

@[simp] theorem xor_get (a b : Block) {i : Nat} (h : i < 16) : (a.xor b).get i = a.get i ^^^ b.get i := by
  simp [xor, h]

@[simp] theorem ofBytes_get (t : Bytes) {i : Nat} (h : i < 16) : (ofBytes t).get i = t.getD i 0 := by
  simp [ofBytes, h]

@[simp] theorem ofBytes_bytes (b : Block) : ofBytes b.bytes = b := ext_get fun i hi => by
  rw [ofBytes_get _ hi]; rfl

/-- The first 16 bytes are the Block's own, whatever follows them. -/
@[simp] theorem ofBytes_bytes_append (b : Block) (r : Bytes) : ofBytes (b.bytes ++ r) = b :=
  ext_get fun i hi => by
    rw [ofBytes_get _ hi]; simp [get, List.getD_eq_getElem?_getD, List.getElem?_append_left, hi]

theorem bytes_ofBytes {t : Bytes} (h : t.length = 16) : (ofBytes t).bytes = t := by
  have : ofBytes t = ⟨t, h⟩ := ofBytes_bytes ⟨t, h⟩
  rw [this]

theorem xor_comm (a b : Block) : a.xor b = b.xor a := ext_get fun i hi => by simp [hi, BitVec.xor_comm]

theorem xor_assoc (a b c : Block) : (a.xor b).xor c = a.xor (b.xor c) :=
  ext_get fun i hi => by simp [hi, BitVec.xor_assoc]

@[simp] theorem xor_zero (a : Block) : a.xor zero = a := ext_get fun i hi => by simp [hi]

@[simp] theorem zero_xor (a : Block) : zero.xor a = a := ext_get fun i hi => by simp [hi]

@[simp] theorem xor_self (a : Block) : a.xor a = zero := ext_get fun i hi => by simp [hi]

end Block

/-- `fits` is the comparison with MAX_LEN (R81). -/
theorem Limits.fits_iff (lim : Limits) (n : Nat) : lim.fits n = true ↔ n ≤ lim.maxLen := by
  have := lim.maxLen_ge
  simp only [fits, Bool.or_eq_true, decide_eq_true_eq]; omega

/-- `fitsCount` is the comparison with MAX_COMP (R81). -/
theorem Limits.fitsCount_iff (lim : Limits) (c : Nat) : lim.fitsCount c = true ↔ c ≤ lim.maxComp := by
  have := lim.maxComp_ge
  simp only [fitsCount, Bool.or_eq_true, decide_eq_true_eq]; omega

/-- KS returns exactly `n` bytes (R64). -/
@[simp] theorem Oracles.length_KS (o : Oracles) (key : Bytes) (seed : Block) (n : Nat) (inc : Inc) :
    (o.KS key seed n inc).length = n := by simp [KS]

@[simp] theorem Oracles.KS_zero (o : Oracles) (key : Bytes) (seed : Block) (inc : Inc) :
    o.KS key seed 0 inc = [] := rfl

namespace Machine

@[simp] theorem length_xorBytes (a b : Bytes) : (xorBytes a b).length = min a.length b.length := by simp [xorBytes]

@[simp] theorem xorBytes_nil (a : Bytes) : xorBytes [] a = [] := by simp [xorBytes]

/-- XOR with the same string twice gives the string back. -/
theorem xorBytes_cancel {a k : Bytes} (h : a.length = k.length) : xorBytes (xorBytes a k) k = a := by
  apply List.ext_getElem (by simp [h])
  intro i h1 h2
  simp [xorBytes]

@[simp] theorem length_zeros (n : Nat) : (zeros n).length = n := by simp [zeros]

@[simp] theorem length_u32le (n : Nat) : (u32le n).length = 4 := rfl

/-- The four bytes of a number below 2^32 read back as the number, whatever follows them (R10). -/
theorem le32_u32le_append {n : Nat} (h : n < 2 ^ 32) (r : Bytes) : le32 (u32le n ++ r) = n := by
  simp only [le32, u32le, List.cons_append, List.nil_append, List.getD_cons_zero, List.getD_cons_succ, BitVec.toNat_ofNat]
  omega

/-- Four bytes are the `u32le` of the number they read as (R10). -/
theorem u32le_le32 {t : Bytes} (h : 4 ≤ t.length) : u32le (le32 t) = t.take 4 := by
  obtain ⟨a, b, c, d, r, rfl⟩ : ∃ a b c d r, t = a :: b :: c :: d :: r := by
    match t, h with
    | a :: b :: c :: d :: r, _ => exact ⟨a, b, c, d, r, rfl⟩
  have ha := a.isLt; have hb := b.isLt; have hc := c.isLt; have hd := d.isLt
  simp only [le32, u32le, List.getD_cons_zero, List.getD_cons_succ, List.take_succ_cons, List.take_zero, List.cons.injEq,
    and_true]
  refine ⟨?_, ?_, ?_, ?_⟩ <;> apply BitVec.eq_of_toNat_eq <;> simp only [BitVec.toNat_ofNat] <;> omega

theorem le32_lt (t : Bytes) : le32 t < 2 ^ 32 := by
  have ha := (t.getD 0 0).isLt; have hb := (t.getD 1 0).isLt
  have hc := (t.getD 2 0).isLt; have hd := (t.getD 3 0).isLt
  unfold le32; omega

/-- The ciphertext of a decrypt input `ct || tag` (R61). -/
@[simp] theorem ctOf_append (ct : Bytes) (tag : Block) : ctOf (ct ++ tag.bytes) = ct := by
  simp [ctOf, memRead]

/-- The tag of a decrypt input `ct || tag` (R61). -/
@[simp] theorem tagOf_append (ct : Bytes) (tag : Block) : tagOf (ct ++ tag.bytes) = tag := by
  have : ((ct ++ tag.bytes).drop ((ct ++ tag.bytes).length - 16)).take 16 = tag.bytes := by
    simp
  rw [tagOf, memRead, this]; exact Block.ofBytes_bytes tag

theorem length_ctOf (t : Bytes) : (ctOf t).length = t.length - 16 := by simp [ctOf, memRead]

end Machine

end Sys2Proof
end

