-- ==== Sys2Proof/Laws/Decode.lean ====
section
/-! SUPPORT. Each field reader gives back what the encoder wrote, and what a reader takes is what the encoder would write. -/

namespace Sys2Proof

open Sys2Proof.Machine

/-- Sequencing of two readers that succeed. -/
theorem bind_ok {α β : Type} (a : α) (f : α → Except Illegal β) : (Except.ok a >>= f) = f a := rfl

theorem readBlk_bytes (b : Block) (r : Bytes) : readBlk (b.bytes ++ r) = .ok (b, r) := by
  have h : ¬ (b.bytes ++ r).length < 16 := by simp
  rw [readBlk, if_neg h]
  simp

theorem readNum_u32le {n : Nat} (h : n < 2 ^ 32) (r : Bytes) : readNum (u32le n ++ r) = .ok (n, r) := by
  have h4 : ¬ (u32le n ++ r).length < 4 := by simp
  rw [readNum, if_neg h4, le32_u32le_append h]
  rfl

/-- A STR field reads back (R81). -/
theorem readStr_encodeStr {lim : Limits} {t : Bytes} (h : strOk lim t = true) (r : Bytes) :
    readStr lim (encodeStr t ++ r) = .ok (t, r) := by
  have hn : t.length ≤ lim.maxLen := (lim.fits_iff _).1 h
  have hl : t.length < 2 ^ 32 := lt_of_le_of_lt hn lim.maxLen_lt
  have h2 : ¬ (t ++ r).length < t.length := by simp
  simp only [readStr, encodeStr, List.append_assoc, readNum_u32le hl, bind_ok]
  rw [if_pos ((lim.fits_iff _).2 hn), if_neg h2]
  simp

/-- The elements of a LIST read back (R81). -/
theorem readStrs_encode {lim : Limits} : ∀ (ts : List Bytes), ts.all (strOk lim) = true → ∀ r : Bytes,
    readStrs lim ts.length (ts.flatMap encodeStr ++ r) = .ok (ts, r)
  | [], _, r => rfl
  | t :: ts, h, r => by
    simp only [List.all_cons, Bool.and_eq_true] at h
    simp only [List.length_cons, readStrs, List.flatMap_cons, List.append_assoc, readStr_encodeStr h.1, bind_ok,
      readStrs_encode ts h.2]

/-- A LIST field reads back (R81). -/
theorem readList_encodeList {lim : Limits} {ts : List Bytes} (h : listOk lim ts = true) (r : Bytes) :
    readList lim (encodeList ts ++ r) = .ok (ts, r) := by
  simp only [listOk, Bool.and_eq_true] at h
  have hc : ts.length < 2 ^ 32 := lt_of_le_of_lt ((lim.fitsCount_iff _).1 h.1) lim.maxComp_lt
  simp only [readList, encodeList, List.append_assoc, readNum_u32le hc, bind_ok, h.1, if_true, readStrs_encode ts h.2]

/-- Format A reads back (R84). -/
theorem readA_encode {lim : Limits} {key nonce ad msg : Bytes} (hk : strOk lim key = true) (hn : strOk lim nonce = true)
    (ha : strOk lim ad = true) (hm : strOk lim msg = true) (r : Bytes) :
    readA lim (encodeStr key ++ encodeStr nonce ++ encodeStr ad ++ encodeStr msg ++ r)
      = .ok ((key, nonce, ad, msg), r) := by
  simp only [readA, List.append_assoc, readStr_encodeStr hk, readStr_encodeStr hn, readStr_encodeStr ha,
    readStr_encodeStr hm, bind_ok]

/-- A BLK field taken is the Block's sixteen bytes. -/
theorem readBlk_ok {t r : Bytes} {b : Block} (h : readBlk t = .ok (b, r)) : t = b.bytes ++ r := by
  simp only [readBlk] at h
  split at h
  · cases h
  · cases h
    rw [Block.bytes_ofBytes (by simp; omega), List.take_append_drop]

theorem readNum_ok {t r : Bytes} {n : Nat} (h : readNum t = .ok (n, r)) : t = u32le n ++ r ∧ n < 2 ^ 32 := by
  simp only [readNum] at h
  split at h
  · cases h
  · cases h
    exact ⟨by rw [u32le_le32 (by omega), List.take_append_drop], le32_lt t⟩

/-- A STR field taken is what the encoder writes for the string it gave, and the string fits (R81). -/
theorem readStr_ok {lim : Limits} {t r x : Bytes} (h : readStr lim t = .ok (x, r)) :
    t = encodeStr x ++ r ∧ strOk lim x = true := by
  simp only [readStr] at h
  cases hn : readNum t with
  | error e => simp [hn, bind, Except.bind] at h
  | ok p =>
    obtain ⟨n, u⟩ := p
    simp only [hn, bind_ok] at h
    split at h
    · rename_i hf
      split at h
      · cases h
      · cases h
        obtain ⟨ht, -⟩ := readNum_ok hn
        have hl : (u.take n).length = n := by simp; omega
        exact ⟨by rw [encodeStr, hl, List.append_assoc, List.take_append_drop, ht], by rw [strOk, hl]; exact hf⟩
    · cases h

/-- The elements of a LIST taken are what the encoder writes for them. -/
theorem readStrs_ok {lim : Limits} : ∀ {c : Nat} {t r : Bytes} {xs : List Bytes}, readStrs lim c t = .ok (xs, r) →
    t = xs.flatMap encodeStr ++ r ∧ xs.length = c ∧ xs.all (strOk lim) = true
  | 0, t, r, xs, h => by simp only [readStrs] at h; cases h; simp
  | c + 1, t, r, xs, h => by
    simp only [readStrs] at h
    cases h1 : readStr lim t with
    | error e => simp [h1, bind, Except.bind] at h
    | ok p =>
      obtain ⟨x, u⟩ := p
      simp only [h1, bind_ok] at h
      cases h2 : readStrs lim c u with
      | error e => simp [h2, bind, Except.bind] at h
      | ok q =>
        obtain ⟨ys, v⟩ := q
        simp only [h2, bind_ok] at h
        cases h
        obtain ⟨ht, hx⟩ := readStr_ok h1
        obtain ⟨hu, hc, hy⟩ := readStrs_ok h2
        exact ⟨by rw [ht, hu]; simp, by simp [hc], by simp only [List.all_cons, hx, hy, Bool.and_self]⟩

/-- A LIST field taken is what the encoder writes for it (R81). -/
theorem readList_ok {lim : Limits} {t r : Bytes} {xs : List Bytes} (h : readList lim t = .ok (xs, r)) :
    t = encodeList xs ++ r ∧ listOk lim xs = true := by
  simp only [readList] at h
  cases hn : readNum t with
  | error e => simp [hn, bind, Except.bind] at h
  | ok p =>
    obtain ⟨n, u⟩ := p
    simp only [hn, bind_ok] at h
    split at h
    · rename_i hf
      obtain ⟨ht, -⟩ := readNum_ok hn
      obtain ⟨hu, hc, hx⟩ := readStrs_ok h
      exact ⟨by rw [encodeList, hc, ht, hu, List.append_assoc], by rw [listOk, hc, hf, hx]; rfl⟩
    · cases h

/-- The opcode byte names its opcode (R86). -/
@[simp] theorem opcodeOf_byte (op : Opcode) : opcodeOf op.byte = some op := by cases op <;> rfl

/-- A byte that names an opcode is that opcode's byte (R85: the whole byte is matched). -/
theorem opcodeOf_some {b : Byte} {op : Opcode} (h : opcodeOf b = some op) : op.byte = b := by
  simpa using List.find?_some h

end Sys2Proof
end

