-- ==== Sys2Proof/Laws/State.lean ====
section
/-! SUPPORT. What each update of the state does to each field: one lemma a field and update. -/

namespace Sys2Proof.Machine

@[simp] theorem toPhase_phase (p : Phase) (s : State) : (toPhase p s).phase = p := rfl
@[simp] theorem toPhase_results (p : Phase) (s : State) : (toPhase p s).results = s.results := rfl
@[simp] theorem toPhase_operands (p : Phase) (s : State) : (toPhase p s).operands = s.operands := rfl
@[simp] theorem toPhase_working (p : Phase) (s : State) : (toPhase p s).working = s.working := rfl
@[simp] theorem toPhase_calls (p : Phase) (s : State) : (toPhase p s).calls = s.calls := rfl
@[simp] theorem toPhase_host (p : Phase) (s : State) : (toPhase p s).host = s.host := rfl

@[simp] theorem startClear_phase (s : State) : (startClear s).phase = .start := rfl
@[simp] theorem startClear_results (s : State) : (startClear s).results = Results.zero := rfl
@[simp] theorem startClear_operands (s : State) : (startClear s).operands = s.operands := rfl
@[simp] theorem startClear_working (s : State) : (startClear s).working = s.working := rfl
@[simp] theorem startClear_calls (s : State) : (startClear s).calls = [] := rfl
@[simp] theorem startClear_host (s : State) : (startClear s).host = s.host := rfl

@[simp] theorem commit_phase (st : Status) (eq : Bool) (out : Bytes) (s : State) : (commit st eq out s).phase = .done := rfl
@[simp] theorem commit_results (st : Status) (eq : Bool) (out : Bytes) (s : State) : (commit st eq out s).results = ⟨st, eq, out.length, out⟩ := rfl
@[simp] theorem commit_operands (st : Status) (eq : Bool) (out : Bytes) (s : State) : (commit st eq out s).operands = Operands.zero := rfl
@[simp] theorem commit_working (st : Status) (eq : Bool) (out : Bytes) (s : State) : (commit st eq out s).working = Working.zero := rfl
@[simp] theorem commit_calls (st : Status) (eq : Bool) (out : Bytes) (s : State) : (commit st eq out s).calls = s.calls := rfl
@[simp] theorem commit_host (st : Status) (eq : Bool) (out : Bytes) (s : State) : (commit st eq out s).host = s.host := rfl

@[simp] theorem raise_phase (e : Status) (s : State) : (raise e s).phase = .done := rfl
@[simp] theorem raise_results (e : Status) (s : State) : (raise e s).results = ⟨e, false, 0, []⟩ := rfl
@[simp] theorem raise_operands (e : Status) (s : State) : (raise e s).operands = Operands.zero := rfl
@[simp] theorem raise_working (e : Status) (s : State) : (raise e s).working = Working.zero := rfl
@[simp] theorem raise_calls (e : Status) (s : State) : (raise e s).calls = s.calls := rfl
@[simp] theorem raise_host (e : Status) (s : State) : (raise e s).host = s.host := rfl

@[simp] theorem record_phase (cs : List OracleCall) (s : State) : (record cs s).phase = s.phase := rfl
@[simp] theorem record_results (cs : List OracleCall) (s : State) : (record cs s).results = s.results := rfl
@[simp] theorem record_operands (cs : List OracleCall) (s : State) : (record cs s).operands = s.operands := rfl
@[simp] theorem record_working (cs : List OracleCall) (s : State) : (record cs s).working = s.working := rfl
@[simp] theorem record_calls (cs : List OracleCall) (s : State) : (record cs s).calls = s.calls ++ cs := rfl
@[simp] theorem record_host (cs : List OracleCall) (s : State) : (record cs s).host = s.host := rfl

@[simp] theorem accept_phase (i : Instr) (s : State) : (accept i s).phase = .start := rfl
@[simp] theorem accept_results (i : Instr) (s : State) : (accept i s).results = Results.zero := rfl
@[simp] theorem accept_operands (i : Instr) (s : State) : (accept i s).operands = operandsOf i := rfl
@[simp] theorem accept_working (i : Instr) (s : State) : (accept i s).working = s.working := rfl
@[simp] theorem accept_calls (i : Instr) (s : State) : (accept i s).calls = [] := rfl
@[simp] theorem accept_host (i : Instr) (s : State) : (accept i s).host = s.host := rfl

@[simp] theorem rejectDescriptor_phase (s : State) : (rejectDescriptor s).phase = .done := rfl
@[simp] theorem rejectDescriptor_results (s : State) : (rejectDescriptor s).results = ⟨.illegalCommand, false, 0, []⟩ := rfl
@[simp] theorem rejectDescriptor_operands (s : State) : (rejectDescriptor s).operands = Operands.zero := rfl
@[simp] theorem rejectDescriptor_working (s : State) : (rejectDescriptor s).working = Working.zero := rfl
@[simp] theorem rejectDescriptor_calls (s : State) : (rejectDescriptor s).calls = [] := rfl
@[simp] theorem rejectDescriptor_host (s : State) : (rejectDescriptor s).host = s.host := rfl

@[simp] theorem State.withHost_phase (h : List HostAct) (s : State) : (State.withHost h s).phase = s.phase := rfl
@[simp] theorem State.withHost_results (h : List HostAct) (s : State) : (State.withHost h s).results = s.results := rfl
@[simp] theorem State.withHost_operands (h : List HostAct) (s : State) : (State.withHost h s).operands = s.operands := rfl
@[simp] theorem State.withHost_working (h : List HostAct) (s : State) : (State.withHost h s).working = s.working := rfl
@[simp] theorem State.withHost_calls (h : List HostAct) (s : State) : (State.withHost h s).calls = s.calls := rfl
@[simp] theorem State.withHost_host (h : List HostAct) (s : State) : (State.withHost h s).host = h := rfl

@[simp] theorem State.withHost_withHost (h h' : List HostAct) (s : State) :
    (s.withHost h).withHost h' = s.withHost h' := rfl

@[simp] theorem State.withHost_host_self (s : State) : s.withHost s.host = s := rfl

@[simp] theorem State.withHost_busy (h : List HostAct) (s : State) : (s.withHost h).busy = s.busy := rfl

/-- BUSY in words of PHASE (R21). -/
theorem State.busy_eq_false (s : State) : s.busy = false ↔ s.phase = .start ∨ s.phase = .done := by
  cases h : s.phase <;> simp [State.busy, h]

/-- DONE in words of PHASE (R21). -/
@[simp] theorem State.done_iff (s : State) : s.done = true ↔ s.phase = .done := by
  cases h : s.phase <;> simp [State.done, h]

@[simp] theorem commit_busy (st : Status) (eq : Bool) (out : Bytes) (s : State) : (commit st eq out s).busy = false := rfl

@[simp] theorem raise_busy (e : Status) (s : State) : (raise e s).busy = false := rfl

/-- A state put to Done for the next START is not BUSY. -/
@[simp] theorem State.idled_busy (s : State) : s.idled.busy = false := by
  by_cases h : s.busy = true
  · simp only [State.idled, h, if_true]; rfl
  · simp only [State.idled, h]; simpa using h

/-- An idle state is left as it is. -/
theorem State.idled_of_idle {s : State} (h : s.busy = false) : s.idled = s := by simp [State.idled, h]

end Sys2Proof.Machine
end

