-- ==== Sys2Proof/Laws/Ops.lean ====
section
/-! SUPPORT. What each shared operation can do: the run of a command along its path, the moves of the sequencer, the host
actions, and the comparator. -/

namespace Sys2Proof.Machine

/-! ### Running to Done -/

/-- A run that is at Done stops there. -/
theorem runToDone_of_done (move : State → Option State) (n : Nat) {s : State} (h : s.phase = .done) :
    runToDone move n s = .next s := by cases n <;> simp [runToDone, h]

/-- One move of a run. -/
theorem runToDone_move (move : State → Option State) (n : Nat) {s t : State} (h : s.phase ≠ .done)
    (hm : move s = some t) : runToDone move (n + 1) s = runToDone move n t := by simp [runToDone, h, hm]

/-- A run that answers a next state ends in Done, at the end of a chain of moves that keeps every property each move
keeps. -/
theorem runToDone_next {move : State → Option State} {P : State → Prop}
    (keeps : ∀ s t, P s → s.phase ≠ .done → move s = some t → P t) :
    ∀ {n : Nat} {s t : State}, P s → runToDone move n s = .next t → P t ∧ t.phase = .done
  | 0, s, t, hs, h => by
    simp only [runToDone] at h
    split at h
    · cases h; exact ⟨hs, ‹_›⟩
    · cases h
  | n + 1, s, t, hs, h => by
    simp only [runToDone] at h
    split at h
    · cases h; exact ⟨hs, ‹_›⟩
    · split at h
      · rename_i hd _ u hu; exact runToDone_next keeps (keeps _ _ hs hd hu) h
      · cases h

/-- A run refuses nothing. -/
theorem runToDone_ne_refused (move : State → Option State) :
    ∀ (n : Nat) (s : State) (r : Refusal), runToDone move n s ≠ .refused r
  | 0, s, r => by simp only [runToDone]; split <;> simp
  | n + 1, s, r => by
    simp only [runToDone]
    split
    · simp
    · split
      · exact runToDone_ne_refused move n _ r
      · simp

/-- Every arm of `exec` is the run of its command over the collaborators of Config: the one inversion of `exec`. -/
theorem exec_eq_execWith (i : Instr) (s : State) : exec i s = execWith Config.oracles i s := by
  cases i <;> rfl

/-! ### Operand registers after latching -/

/-- OP names the latched command (R87). -/
@[simp] theorem opcodeOf_operandsOf (i : Instr) : opcodeOf (operandsOf i).op = some i.opcode := by
  cases i <;> rfl

/-! ### The moves of the sequencer -/

/-- A move that answers is the move of the command OP names. -/
theorem advance_next {o : Oracles} {s t : State} (h : advance o s = .next t) :
    ∃ op, opcodeOf s.operands.op = some op ∧ moveOf o op s = some t := by
  simp only [advance] at h
  cases hop : opcodeOf s.operands.op with
  | none => simp [hop] at h
  | some op =>
    simp only [hop, Option.bind_some] at h
    split at h
    · cases h; exact ⟨op, rfl, ‹_›⟩
    · cases h

/-- The move of a latched command (R87). -/
theorem advance_of_operands {o : Oracles} {s t : State} {i : Instr} (h : s.operands = operandsOf i)
    (hm : moveOf o i.opcode s = some t) : advance o s = .next t := by simp [advance, h, hm]

/-- No move changes the host's queue. -/
theorem moveOf_host {o : Oracles} {op : Opcode} {s t : State} (h : moveOf o op s = some t) : t.host = s.host := by
  cases op <;> simp only [moveOf, moveCmacInit, moveCmacSum, moveCmacSumm, moveS2v, moveSivEnc, moveSivDec,
    moveGsivDerive, moveGsivTag, moveGsivEnc, moveGsivDec, reduceCtorEq] at h <;>
    first
    | contradiction
    | (split at h <;> first
        | contradiction
        | (cases h
           first
           | rfl
           | (split <;> rfl)
           | (simp only [gsivNonce]; split <;> rfl)
           | (simp only [decVerify]; split <;> rfl)))

/-- A move leaves the operand registers as they are, or ends the command and scrubs them (R28, R32). -/
theorem moveOf_operands {o : Oracles} {op : Opcode} {s t : State} (h : moveOf o op s = some t) :
    t.operands = s.operands ∨ (t.phase = .done ∧ t.operands = Operands.zero) := by
  cases op <;> simp only [moveOf, moveCmacInit, moveCmacSum, moveCmacSumm, moveS2v, moveSivEnc, moveSivDec,
    moveGsivDerive, moveGsivTag, moveGsivEnc, moveGsivDec, reduceCtorEq] at h <;>
    first
    | contradiction
    | (split at h <;> first
        | contradiction
        | (cases h
           first
           | exact .inl rfl
           | exact .inr ⟨rfl, rfl⟩
           | (split <;> first | exact .inl rfl | exact .inr ⟨rfl, rfl⟩)
           | (simp only [gsivNonce]; split <;> exact .inl rfl)
           | (simp only [decVerify]; split <;> exact .inr ⟨rfl, rfl⟩)))

/-- A move leaves the result registers as they are, or ends the command (R30: only `commit` writes them). -/
theorem moveOf_results {o : Oracles} {op : Opcode} {s t : State} (h : moveOf o op s = some t) :
    t.results = s.results ∨ t.phase = .done := by
  cases op <;> simp only [moveOf, moveCmacInit, moveCmacSum, moveCmacSumm, moveS2v, moveSivEnc, moveSivDec,
    moveGsivDerive, moveGsivTag, moveGsivEnc, moveGsivDec, reduceCtorEq] at h <;>
    first
    | contradiction
    | (split at h <;> first
        | contradiction
        | (cases h
           first
           | exact .inl rfl
           | exact .inr rfl
           | (split <;> first | exact .inl rfl | exact .inr rfl)
           | (simp only [gsivNonce]; split <;> exact .inl rfl)
           | (simp only [decVerify]; split <;> exact .inr rfl)))

/-! ### The host port -/

/-- What one step can be: time passing, or the front host action on the core. -/
theorem portStep_cases (s : State) :
    (s.host = [] ∧ portStep s = idle s) ∨ ∃ a rest, s.host = a :: rest ∧ portStep s = hostAct a (s.withHost rest) := by
  cases h : s.host with
  | nil => exact .inl ⟨rfl, by simp [portStep, h]⟩
  | cons a rest => exact .inr ⟨a, rest, rfl, by simp [portStep, h]⟩

/-! ### The comparator -/

/-- The OR of bytes is zero exactly when each is. -/
theorem foldl_or_eq_zero (f : Nat → Byte) :
    ∀ (l : List Nat) (acc : Byte), l.foldl (fun acc i => acc ||| f i) acc = 0#8 ↔ acc = 0#8 ∧ ∀ i ∈ l, f i = 0#8
  | [], acc => by simp
  | j :: l, acc => by
    simp only [List.foldl_cons, foldl_or_eq_zero f l, BitVec.or_eq_zero_iff, List.mem_cons, forall_eq_or_imp, and_assoc]

end Sys2Proof.Machine
end

