-- ==== Sys2Proof/Laws/PerInstr.lean ====
section
/-! SUPPORT. The family ReadBack: the fields the encoder writes for a command are read back as that command, whatever
follows them (30_encoding.md R84, R88). -/

namespace Sys2Proof.Laws.ReadBack

open Sys2Proof Sys2Proof.Machine

/-- The fields of a well-formed command read back. -/
def Statement (i : Instr) : Prop :=
  ∀ (lim : Limits) (r : Bytes), i.wellFormed lim = true → decodeFields lim i.opcode (encodeFields i ++ r) = .ok (i, r)

theorem dbl (x : Block) : Statement (.dbl x) := fun _ r _ => by
  simp only [decodeFields, encodeFields, Instr.opcode, readBlk_bytes, bind_ok]

theorem pmul (a b : Block) : Statement (.pmul a b) := fun _ r _ => by
  simp only [decodeFields, encodeFields, Instr.opcode, List.append_assoc, readBlk_bytes, bind_ok]

theorem cteq (a b : Block) : Statement (.cteq a b) := fun _ r _ => by
  simp only [decodeFields, encodeFields, Instr.opcode, List.append_assoc, readBlk_bytes, bind_ok]

theorem clr : Statement .clr := fun _ _ _ => rfl

theorem cmacInit (key : Bytes) : Statement (.cmacInit key) := fun _ r h => by
  simp only [decodeFields, encodeFields, Instr.opcode, readStr_encodeStr (show strOk _ key = true from h), bind_ok]

theorem cmacSum (key msg : Bytes) : Statement (.cmacSum key msg) := fun lim r h => by
  simp only [Instr.wellFormed, Bool.and_eq_true] at h
  simp only [decodeFields, encodeFields, Instr.opcode, List.append_assoc, readStr_encodeStr h.1, readStr_encodeStr h.2,
    bind_ok]

theorem cmacSumm (key msg : Bytes) (mask : Block) : Statement (.cmacSumm key msg mask) := fun lim r h => by
  simp only [Instr.wellFormed, Bool.and_eq_true] at h
  simp only [decodeFields, encodeFields, Instr.opcode, List.append_assoc, readStr_encodeStr h.1, readStr_encodeStr h.2,
    readBlk_bytes, bind_ok]

theorem s2v (key : Bytes) (comps : List Bytes) (fin : Bytes) : Statement (.s2v key comps fin) := fun lim r h => by
  simp only [Instr.wellFormed, Bool.and_eq_true] at h
  simp only [decodeFields, encodeFields, Instr.opcode, List.append_assoc, readStr_encodeStr h.1.1,
    readList_encodeList h.1.2, readStr_encodeStr h.2, bind_ok]

theorem sivEnc (key nonce ad msg : Bytes) : Statement (.sivEnc key nonce ad msg) := fun lim r h => by
  simp only [Instr.wellFormed, Bool.and_eq_true] at h
  simp only [decodeFields, encodeFields, Instr.opcode, readA_encode h.1.1.1 h.1.1.2 h.1.2 h.2, bind_ok]

theorem sivDec (key nonce ad msg : Bytes) : Statement (.sivDec key nonce ad msg) := fun lim r h => by
  simp only [Instr.wellFormed, Bool.and_eq_true] at h
  simp only [decodeFields, encodeFields, Instr.opcode, readA_encode h.1.1.1 h.1.1.2 h.1.2 h.2, bind_ok]

theorem gsivDerive (key nonce : Bytes) : Statement (.gsivDerive key nonce) := fun lim r h => by
  simp only [Instr.wellFormed, Bool.and_eq_true] at h
  simp only [decodeFields, encodeFields, Instr.opcode, List.append_assoc, readStr_encodeStr h.1, readStr_encodeStr h.2,
    bind_ok]

theorem pvHash (b : Block) (data : Bytes) : Statement (.pvHash b data) := fun _ r h => by
  simp only [decodeFields, encodeFields, Instr.opcode, List.append_assoc, readBlk_bytes,
    readStr_encodeStr (show strOk _ data = true from h), bind_ok]

theorem pvDigest (authKey : Block) (ad pt : Bytes) : Statement (.pvDigest authKey ad pt) := fun lim r h => by
  simp only [Instr.wellFormed, Bool.and_eq_true] at h
  simp only [decodeFields, encodeFields, Instr.opcode, List.append_assoc, readBlk_bytes, readStr_encodeStr h.1,
    readStr_encodeStr h.2, bind_ok]

theorem gsivTag (key nonce ad msg : Bytes) : Statement (.gsivTag key nonce ad msg) := fun lim r h => by
  simp only [Instr.wellFormed, Bool.and_eq_true] at h
  simp only [decodeFields, encodeFields, Instr.opcode, readA_encode h.1.1.1 h.1.1.2 h.1.2 h.2, bind_ok]

theorem gsivEnc (key nonce ad msg : Bytes) : Statement (.gsivEnc key nonce ad msg) := fun lim r h => by
  simp only [Instr.wellFormed, Bool.and_eq_true] at h
  simp only [decodeFields, encodeFields, Instr.opcode, readA_encode h.1.1.1 h.1.1.2 h.1.2 h.2, bind_ok]

theorem gsivDec (key nonce ad msg : Bytes) : Statement (.gsivDec key nonce ad msg) := fun lim r h => by
  simp only [Instr.wellFormed, Bool.and_eq_true] at h
  simp only [decodeFields, encodeFields, Instr.opcode, readA_encode h.1.1.1 h.1.1.2 h.1.2 h.2, bind_ok]

end Sys2Proof.Laws.ReadBack
end

