-- ==== Sys2Proof/Machine/Assembler.lean ====
section
/-! DEFINITION. The assembler's text and pseudo-forms (30_encoding.md R91, R92): from a line of text to a descriptor. The
core never sees the text; details the spec leaves open are in notes/assumptions/21.md. -/

namespace Sys2Proof.Machine

/-- A line, a word, a value: characters. -/
abbrev Text := List Char

/-- The type of an operand field (R81). -/
inductive FieldType where
  | blk | str | list
  deriving DecidableEq, Repr

/-- The value of an operand field. -/
inductive FieldVal where
  | blk (b : Block)
  | str (t : Bytes)
  | list (ts : List Bytes)
  deriving DecidableEq, Repr

/-- The mnemonics (R86). -/
def mnemonicOf : Opcode → String
  | .dbl => "DBL"
  | .pmul => "PMUL"
  | .cteq => "CTEQ"
  | .clr => "CLR"
  | .cmacInit => "CMAC.INIT"
  | .cmacSum => "CMAC.SUM"
  | .cmacSumm => "CMAC.SUMM"
  | .s2v => "S2V"
  | .sivEnc => "SIV.ENC"
  | .sivDec => "SIV.DEC"
  | .gsivDerive => "GSIV.DERIVE"
  | .pvHash => "PV.HASH"
  | .pvDigest => "PV.DIGEST"
  | .gsivTag => "GSIV.TAG"
  | .gsivEnc => "GSIV.ENC"
  | .gsivDec => "GSIV.DEC"

/-- The fields of format A (R83). -/
def fieldsA : List (String × FieldType) := [("key", .str), ("nonce", .str), ("ad", .str), ("msg", .str)]

/-- The fields of each opcode's format, in order, by the names of R83. -/
def fieldsOf : Opcode → List (String × FieldType)
  | .dbl => [("x", .blk)]
  | .pmul => [("a", .blk), ("b", .blk)]
  | .cteq => [("a", .blk), ("b", .blk)]
  | .clr => []
  | .cmacInit => [("key", .str)]
  | .cmacSum => [("key", .str), ("msg", .str)]
  | .cmacSumm => [("key", .str), ("msg", .str), ("mask", .blk)]
  | .s2v => [("key", .str), ("comps", .list), ("final", .str)]
  | .sivEnc => fieldsA
  | .sivDec => fieldsA
  | .gsivDerive => [("key", .str), ("nonce", .str)]
  | .pvHash => [("h", .blk), ("data", .str)]
  | .pvDigest => [("authKey", .blk), ("ad", .str), ("pt", .str)]
  | .gsivTag => fieldsA
  | .gsivEnc => fieldsA
  | .gsivDec => fieldsA

/-- The command made of an opcode and its field values. -/
def commandOf : Opcode → List FieldVal → Option Instr
  | .dbl, [.blk x] => some (.dbl x)
  | .pmul, [.blk a, .blk b] => some (.pmul a b)
  | .cteq, [.blk a, .blk b] => some (.cteq a b)
  | .clr, [] => some .clr
  | .cmacInit, [.str key] => some (.cmacInit key)
  | .cmacSum, [.str key, .str msg] => some (.cmacSum key msg)
  | .cmacSumm, [.str key, .str msg, .blk mask] => some (.cmacSumm key msg mask)
  | .s2v, [.str key, .list comps, .str fin] => some (.s2v key comps fin)
  | .sivEnc, [.str key, .str nonce, .str ad, .str msg] => some (.sivEnc key nonce ad msg)
  | .sivDec, [.str key, .str nonce, .str ad, .str msg] => some (.sivDec key nonce ad msg)
  | .gsivDerive, [.str key, .str nonce] => some (.gsivDerive key nonce)
  | .pvHash, [.blk h, .str data] => some (.pvHash h data)
  | .pvDigest, [.blk authKey, .str ad, .str pt] => some (.pvDigest authKey ad pt)
  | .gsivTag, [.str key, .str nonce, .str ad, .str msg] => some (.gsivTag key nonce ad msg)
  | .gsivEnc, [.str key, .str nonce, .str ad, .str msg] => some (.gsivEnc key nonce ad msg)
  | .gsivDec, [.str key, .str nonce, .str ad, .str msg] => some (.gsivDec key nonce ad msg)
  | _, _ => none

/-! ### Characters -/

/-- The value of a hexadecimal digit. -/
def hexDigit (c : Char) : Option Nat :=
  let n := c.toNat
  if 48 ≤ n ∧ n ≤ 57 then some (n - 48)
  else if 97 ≤ n ∧ n ≤ 102 then some (n - 87)
  else if 65 ≤ n ∧ n ≤ 70 then some (n - 55)
  else none

/-- An even number of hexadecimal digits, byte 0 first. -/
def hexBytes : Text → Option Bytes
  | [] => some []
  | [_] => none
  | c :: d :: r =>
    match hexDigit c, hexDigit d, hexBytes r with
    | some h, some l, some t => some (BitVec.ofNat 8 (16 * h + l) :: t)
    | _, _, _ => none

/-- The text without its spaces. -/
def dropSpaces (t : Text) : Text := t.filter (· ≠ ' ')

/-- The parts between the separators. -/
def splitAtChar (sep : Char) : Text → List Text
  | [] => [[]]
  | c :: r =>
    if c = sep then [] :: splitAtChar sep r
    else
      match splitAtChar sep r with
      | [] => [[c]]
      | p :: ps => (c :: p) :: ps

/-- A BLK or STR value, or an element of a LIST: an even number of hexadecimal digits, or `-` for the empty string; spaces
inside are ignored (R91). R91 does not say whether zero digits are such a number: the model refuses the line (DESIGN
CHOICE, notes/assumptions/21.md), so the empty string is written `-` alone. -/
def bytesValue (t : Text) : Option Bytes :=
  if dropSpaces t = ['-'] then some []
  else if dropSpaces t = [] then none
  else hexBytes (dropSpaces t)

/-- The text between `[` and `]`. -/
def bracketed (t : Text) : Option Text :=
  match dropSpaces t with
  | '[' :: r => if r.getLast? = some ']' then some r.dropLast else none
  | _ => none

/-- All values, or none. -/
def allValues : List Text → Option (List Bytes)
  | [] => some []
  | t :: ts =>
    match bytesValue t, allValues ts with
    | some x, some xs => some (x :: xs)
    | _, _ => none

/-- The value of a field of the given type (R91). -/
def fieldValue : FieldType → Text → Option FieldVal
  | .blk, t => (bytesValue t).bind fun b => if b.length = 16 then some (.blk (Block.ofBytes b)) else none
  | .str, t => (bytesValue t).map .str
  | .list, t =>
    (bracketed t).bind fun inner => if inner = [] then some (.list []) else (allValues (splitAtChar ';' inner)).map .list

/-- The value of a field left out: the empty string or list; a BLK field may not be left out (R92). -/
def defaultValue : FieldType → Option FieldVal
  | .blk => none
  | .str => some (.str [])
  | .list => some (.list [])

/-- A `field=value` item. -/
def itemOf (t : Text) : Option (Text × Text) :=
  match splitAtChar '=' t with
  | [name, value] => some (dropSpaces name, value)
  | _ => none

/-- All items, or none. -/
def itemsOf : List Text → Option (List (Text × Text))
  | [] => some []
  | t :: ts =>
    match itemOf t, itemsOf ts with
    | some x, some xs => some (x :: xs)
    | _, _ => none

/-- The values of a format's fields from the items given, which stand in the format's order; fields may be left out. -/
def valuesOf : List (String × FieldType) → List (Text × Text) → Option (List FieldVal)
  | [], [] => some []
  | [], _ :: _ => none
  | (_, ty) :: fs, [] => (defaultValue ty).bind fun v => (valuesOf fs []).map (v :: ·)
  | (name, ty) :: fs, (n, t) :: items =>
    if n = name.toList then (fieldValue ty t).bind fun v => (valuesOf fs items).map (v :: ·)
    else (defaultValue ty).bind fun v => (valuesOf fs ((n, t) :: items)).map (v :: ·)

/-! ### Mnemonics and pseudo-forms -/

/-- A mnemonic, with the key length a pseudo-form checks (R92). -/
structure Form where
  name : String
  opcode : Opcode
  keyLen : Option Nat

/-- The sixteen mnemonics (R86). -/
def plainForms : List Form :=
  [Opcode.dbl, .pmul, .cteq, .clr, .cmacInit, .cmacSum, .cmacSumm, .s2v, .sivEnc, .sivDec, .gsivDerive, .pvHash,
    .pvDigest, .gsivTag, .gsivEnc, .gsivDec].map fun op => ⟨mnemonicOf op, op, none⟩

/-- The pseudo-forms: the key's length is checked by the assembler and the descriptor is the same (R92). -/
def pseudoForms : List Form :=
  [⟨"SIV128.ENC", .sivEnc, some 32⟩, ⟨"SIV256.ENC", .sivEnc, some 64⟩,
   ⟨"SIV128.DEC", .sivDec, some 32⟩, ⟨"SIV256.DEC", .sivDec, some 64⟩,
   ⟨"GSIV128.DERIVE", .gsivDerive, some 16⟩, ⟨"GSIV256.DERIVE", .gsivDerive, some 32⟩,
   ⟨"GSIV128.TAG", .gsivTag, some 16⟩, ⟨"GSIV256.TAG", .gsivTag, some 32⟩,
   ⟨"GSIV128.ENC", .gsivEnc, some 16⟩, ⟨"GSIV256.ENC", .gsivEnc, some 32⟩,
   ⟨"GSIV128.DEC", .gsivDec, some 16⟩, ⟨"GSIV256.DEC", .gsivDec, some 32⟩]

/-- The pseudo-form's check of the key, the first field. -/
def keyCheck : Option Nat → List FieldVal → Bool
  | none, _ => true
  | some n, .str key :: _ => key.length == n
  | some _, _ => false

/-- The command a line of assembler text names (R91, R92). -/
def parseLine (line : Text) : Option Instr :=
  let mnemonic := line.takeWhile (· ≠ ' ')
  let rest := line.dropWhile (· ≠ ' ')
  match (plainForms ++ pseudoForms).find? fun f => f.name.toList = mnemonic with
  | none => none
  | some f =>
    match if dropSpaces rest = [] then some [] else itemsOf (splitAtChar ',' rest) with
    | none => none
    | some items =>
      match valuesOf (fieldsOf f.opcode) items with
      | none => none
      | some vals => if keyCheck f.keyLen vals then commandOf f.opcode vals else none

/-- The assembler: a line of text to its descriptor (R91). -/
def assemble (line : String) : Option Bytes := (parseLine line.toList).map encode

end Sys2Proof.Machine
end

