-- ==== Sys2Proof/Tests/Slice0.lean ====
section
/-! SUPPORT. Tests: descriptors written out from 30_encoding.md R84; ill-formed commands refused; one step or one command on
vectors of 95_test_vectors.md and 96_test_vectors_modes.md (the source is named at each); and for every obligation with
hypotheses a state and operands that meet them. -/

namespace Sys2Proof.Tests

open Sys2Proof Sys2Proof.Machine

/-! ### Helpers -/

/-- `n` bytes written as one hexadecimal number, byte 0 first. -/
def hx (n w : Nat) : Bytes := (bytesOfWord n w).reverse

/-- A Block written as one hexadecimal number, byte 0 first. -/
def bl (w : Nat) : Block := Block.ofBytes (hx 16 w)

/-- STATUS, EQ and DOUT after an outcome. -/
def shown : Host.Outcome State Fault Refusal → Option (Byte × Bool × Bytes)
  | .next s => some (s.results.status.code, s.results.eq, s.results.dout)
  | .fault _ => none
  | .refused _ => none

/-- A descriptor run with the toy collaborators (95_test_vectors.md section 3.1) from reset. -/
def toy (desc : Bytes) : Option (Byte × Bool × Bytes) :=
  match decode desc with
  | .ok i => shown (execWith toyOracles i State.reset)
  | .error _ => none

/-- Limits of 64 bytes and 2 components. -/
def lim64 : Limits := ⟨64, 2, by decide, by decide, by decide, by decide⟩

/-! ### Decoding, and the encoder back: bytes laid out by hand from R84 -/

theorem test_decode_dbl :
    decode [0x01, 0x80, 0x00, 0x00, 0x00, 0x00, 0x00, 0x00, 0x00, 0x00, 0x00, 0x00, 0x00, 0x00, 0x00, 0x00, 0x01] = .ok (.dbl (bl 0x80000000000000000000000000000001)) ∧
    encode (.dbl (bl 0x80000000000000000000000000000001)) = (hx 17 0x0180000000000000000000000000000001) := by decide

theorem test_decode_pmul :
    decode [0x02, 0x80, 0x00, 0x00, 0x00, 0x00, 0x00, 0x00, 0x00, 0x00, 0x00, 0x00, 0x00, 0x00, 0x00, 0x00, 0x01, 0x00,
      0x11, 0x22, 0x33, 0x44, 0x55, 0x66, 0x77, 0x88, 0x99, 0xAA, 0xBB, 0xCC, 0xDD, 0xEE, 0xFF] = .ok (.pmul (bl 0x80000000000000000000000000000001) (bl 0x00112233445566778899aabbccddeeff)) ∧
    encode (.pmul (bl 0x80000000000000000000000000000001) (bl 0x00112233445566778899aabbccddeeff)) = (hx 33 0x028000000000000000000000000000000100112233445566778899aabbccddeeff) := by decide

theorem test_decode_cteq :
    decode [0x03, 0x00, 0x11, 0x22, 0x33, 0x44, 0x55, 0x66, 0x77, 0x88, 0x99, 0xAA, 0xBB, 0xCC, 0xDD, 0xEE, 0xFF, 0x80,
      0x00, 0x00, 0x00, 0x00, 0x00, 0x00, 0x00, 0x00, 0x00, 0x00, 0x00, 0x00, 0x00, 0x00, 0x01] = .ok (.cteq (bl 0x00112233445566778899aabbccddeeff) (bl 0x80000000000000000000000000000001)) ∧
    encode (.cteq (bl 0x00112233445566778899aabbccddeeff) (bl 0x80000000000000000000000000000001)) = (hx 33 0x0300112233445566778899aabbccddeeff80000000000000000000000000000001) := by decide

theorem test_decode_clr :
    decode [0x0F] = .ok .clr ∧
    encode .clr = (hx 1 0x0f) := by decide

theorem test_decode_cmacInit :
    decode [0x10, 0x03, 0x00, 0x00, 0x00, 0x0A, 0x0B, 0x0C] = .ok (.cmacInit [0x0A, 0x0B, 0x0C]) ∧
    encode (.cmacInit [0x0A, 0x0B, 0x0C]) = (hx 8 0x10030000000a0b0c) := by decide

theorem test_decode_cmacSum :
    decode [0x11, 0x02, 0x00, 0x00, 0x00, 0xAA, 0xBB, 0x01, 0x00, 0x00, 0x00, 0xCC] = .ok (.cmacSum [0xAA, 0xBB] [0xCC]) ∧
    encode (.cmacSum [0xAA, 0xBB] [0xCC]) = (hx 12 0x1102000000aabb01000000cc) := by decide

theorem test_decode_cmacSumm :
    decode [0x12, 0x01, 0x00, 0x00, 0x00, 0xAA, 0x00, 0x00, 0x00, 0x00, 0x00, 0x11, 0x22, 0x33, 0x44, 0x55, 0x66, 0x77,
      0x88, 0x99, 0xAA, 0xBB, 0xCC, 0xDD, 0xEE, 0xFF] = .ok (.cmacSumm [0xAA] [] (bl 0x00112233445566778899aabbccddeeff)) ∧
    encode (.cmacSumm [0xAA] [] (bl 0x00112233445566778899aabbccddeeff)) = (hx 26 0x1201000000aa0000000000112233445566778899aabbccddeeff) := by decide

theorem test_decode_s2v :
    decode [0x20, 0x01, 0x00, 0x00, 0x00, 0xAA, 0x02, 0x00, 0x00, 0x00, 0x01, 0x00, 0x00, 0x00, 0xB0, 0x00, 0x00, 0x00,
      0x00, 0x01, 0x00, 0x00, 0x00, 0xCC] = .ok (.s2v [0xAA] [[0xB0], []] [0xCC]) ∧
    encode (.s2v [0xAA] [[0xB0], []] [0xCC]) = (hx 24 0x2001000000aa0200000001000000b00000000001000000cc) := by decide

theorem test_decode_sivEnc :
    decode [0x30, 0x01, 0x00, 0x00, 0x00, 0x0A, 0x02, 0x00, 0x00, 0x00, 0x0B, 0x1B, 0x00, 0x00, 0x00, 0x00, 0x01, 0x00,
      0x00, 0x00, 0x0D] = .ok (.sivEnc [0x0A] [0x0B, 0x1B] [] [0x0D]) ∧
    encode (.sivEnc [0x0A] [0x0B, 0x1B] [] [0x0D]) = (hx 21 0x30010000000a020000000b1b00000000010000000d) := by decide

theorem test_decode_sivDec :
    decode [0x31, 0x01, 0x00, 0x00, 0x00, 0x0A, 0x01, 0x00, 0x00, 0x00, 0x0B, 0x01, 0x00, 0x00, 0x00, 0x0C, 0x01, 0x00,
      0x00, 0x00, 0x0D] = .ok (.sivDec [0x0A] [0x0B] [0x0C] [0x0D]) ∧
    encode (.sivDec [0x0A] [0x0B] [0x0C] [0x0D]) = (hx 21 0x31010000000a010000000b010000000c010000000d) := by decide

theorem test_decode_gsivDerive :
    decode [0x40, 0x00, 0x00, 0x00, 0x00, 0x01, 0x00, 0x00, 0x00, 0x0B] = .ok (.gsivDerive [] [0x0B]) ∧
    encode (.gsivDerive [] [0x0B]) = (hx 10 0x4000000000010000000b) := by decide

theorem test_decode_pvHash :
    decode [0x41, 0x00, 0x11, 0x22, 0x33, 0x44, 0x55, 0x66, 0x77, 0x88, 0x99, 0xAA, 0xBB, 0xCC, 0xDD, 0xEE, 0xFF, 0x02,
      0x00, 0x00, 0x00, 0x01, 0x02] = .ok (.pvHash (bl 0x00112233445566778899aabbccddeeff) [0x01, 0x02]) ∧
    encode (.pvHash (bl 0x00112233445566778899aabbccddeeff) [0x01, 0x02]) = (hx 23 0x4100112233445566778899aabbccddeeff020000000102) := by decide

theorem test_decode_pvDigest :
    decode [0x42, 0x00, 0x11, 0x22, 0x33, 0x44, 0x55, 0x66, 0x77, 0x88, 0x99, 0xAA, 0xBB, 0xCC, 0xDD, 0xEE, 0xFF, 0x01,
      0x00, 0x00, 0x00, 0x0C, 0x01, 0x00, 0x00, 0x00, 0x0D] = .ok (.pvDigest (bl 0x00112233445566778899aabbccddeeff) [0x0C] [0x0D]) ∧
    encode (.pvDigest (bl 0x00112233445566778899aabbccddeeff) [0x0C] [0x0D]) = (hx 27 0x4200112233445566778899aabbccddeeff010000000c010000000d) := by decide

theorem test_decode_gsivTag :
    decode [0x43, 0x01, 0x00, 0x00, 0x00, 0x0A, 0x01, 0x00, 0x00, 0x00, 0x0B, 0x01, 0x00, 0x00, 0x00, 0x0C, 0x01, 0x00,
      0x00, 0x00, 0x0D] = .ok (.gsivTag [0x0A] [0x0B] [0x0C] [0x0D]) ∧
    encode (.gsivTag [0x0A] [0x0B] [0x0C] [0x0D]) = (hx 21 0x43010000000a010000000b010000000c010000000d) := by decide

theorem test_decode_gsivEnc :
    decode [0x44, 0x01, 0x00, 0x00, 0x00, 0x0A, 0x01, 0x00, 0x00, 0x00, 0x0B, 0x00, 0x00, 0x00, 0x00, 0x02, 0x00, 0x00,
      0x00, 0x0D, 0x1D] = .ok (.gsivEnc [0x0A] [0x0B] [] [0x0D, 0x1D]) ∧
    encode (.gsivEnc [0x0A] [0x0B] [] [0x0D, 0x1D]) = (hx 21 0x44010000000a010000000b00000000020000000d1d) := by decide

theorem test_decode_gsivDec :
    decode [0x45, 0x01, 0x00, 0x00, 0x00, 0x0A, 0x01, 0x00, 0x00, 0x00, 0x0B, 0x01, 0x00, 0x00, 0x00, 0x0C, 0x00, 0x00,
      0x00, 0x00] = .ok (.gsivDec [0x0A] [0x0B] [0x0C] []) ∧
    encode (.gsivDec [0x0A] [0x0B] [0x0C] []) = (hx 20 0x45010000000a010000000b010000000c00000000) := by decide

/-- V-ERR-1 to V-ERR-12: empty, unassigned, truncated, trailing. -/
theorem test_decode_illegal :
    decode [] = .error .empty ∧ decode [0x00] = .error .unassignedOpcode ∧ decode [0x04] = .error .unassignedOpcode ∧
    decode [0x46] = .error .unassignedOpcode ∧ decode [0xFF] = .error .unassignedOpcode ∧
    decode (0x01 :: zeros 15) = .error .truncated ∧ decode (0x01 :: zeros 17) = .error .trailingBytes ∧
    decode [0x0F, 0x00] = .error .trailingBytes ∧ decode [0x10, 0x01, 0x00] = .error .truncated ∧
    decode [0x10, 0x04, 0, 0, 0, 0x61] = .error .truncated := by decide

/-- V-ERR-13, V-ERR-14: a length above MAX_LEN, a count above MAX_COMP; the limits themselves are accepted. -/
theorem test_decode_limits :
    decodeWith lim64 (0x10 :: u32le 65 ++ zeros 65) = .error .lengthAboveMaxLen ∧
    decodeWith lim64 (0x10 :: u32le 64 ++ zeros 64) = .ok (.cmacInit (zeros 64)) ∧
    decodeWith lim64 (0x20 :: u32le 0 ++ u32le 3 ++ zeros 16) = .error .countAboveMaxComp ∧
    decodeWith lim64 (0x20 :: u32le 0 ++ u32le 2 ++ zeros 12) = .ok (.s2v [] [[], []] []) := by decide

/-- The table numbers bit 0 as the least significant bit of byte 0; operand fields above the given bits are zero. -/
theorem test_decodeTableWord :
    decodeTableWord 8 0x0F = some .clr ∧ decodeTableWord 8 0x01 = some (.dbl Block.zero) ∧
    decodeTableWord 16 0x8001 = some (.dbl (bl 0x80000000000000000000000000000000)) ∧
    decodeTableWord 8 0x20 = some (.s2v [] [] []) ∧ decodeTableWord 8 0x45 = some (.gsivDec [] [] [] []) ∧
    decodeTableWord 8 0x04 = none := by decide

/-! ### Well-formedness: each check refuses a string of 65 bytes, or three components, under limits of 64 and 2 -/

/-- A string one byte too long. -/
def long : Bytes := zeros 65

theorem test_wellFormed_cmacInit :
    (Instr.cmacInit long).wellFormed lim64 = false := by decide

theorem test_wellFormed_cmacSum :
    (Instr.cmacSum long []).wellFormed lim64 = false ∧
    (Instr.cmacSum [] long).wellFormed lim64 = false := by decide

theorem test_wellFormed_cmacSumm :
    (Instr.cmacSumm long [] Block.zero).wellFormed lim64 = false ∧
    (Instr.cmacSumm [] long Block.zero).wellFormed lim64 = false := by decide

theorem test_wellFormed_sivEnc :
    (Instr.sivEnc long [] [] []).wellFormed lim64 = false ∧
    (Instr.sivEnc [] long [] []).wellFormed lim64 = false ∧
    (Instr.sivEnc [] [] long []).wellFormed lim64 = false ∧
    (Instr.sivEnc [] [] [] long).wellFormed lim64 = false := by decide

theorem test_wellFormed_sivDec :
    (Instr.sivDec long [] [] []).wellFormed lim64 = false ∧
    (Instr.sivDec [] long [] []).wellFormed lim64 = false ∧
    (Instr.sivDec [] [] long []).wellFormed lim64 = false ∧
    (Instr.sivDec [] [] [] long).wellFormed lim64 = false := by decide

theorem test_wellFormed_gsivDerive :
    (Instr.gsivDerive long []).wellFormed lim64 = false ∧
    (Instr.gsivDerive [] long).wellFormed lim64 = false := by decide

theorem test_wellFormed_pvHash :
    (Instr.pvHash Block.zero long).wellFormed lim64 = false := by decide

theorem test_wellFormed_pvDigest :
    (Instr.pvDigest Block.zero long []).wellFormed lim64 = false ∧
    (Instr.pvDigest Block.zero [] long).wellFormed lim64 = false := by decide

theorem test_wellFormed_gsivTag :
    (Instr.gsivTag long [] [] []).wellFormed lim64 = false ∧
    (Instr.gsivTag [] long [] []).wellFormed lim64 = false ∧
    (Instr.gsivTag [] [] long []).wellFormed lim64 = false ∧
    (Instr.gsivTag [] [] [] long).wellFormed lim64 = false := by decide

theorem test_wellFormed_gsivEnc :
    (Instr.gsivEnc long [] [] []).wellFormed lim64 = false ∧
    (Instr.gsivEnc [] long [] []).wellFormed lim64 = false ∧
    (Instr.gsivEnc [] [] long []).wellFormed lim64 = false ∧
    (Instr.gsivEnc [] [] [] long).wellFormed lim64 = false := by decide

theorem test_wellFormed_gsivDec :
    (Instr.gsivDec long [] [] []).wellFormed lim64 = false ∧
    (Instr.gsivDec [] long [] []).wellFormed lim64 = false ∧
    (Instr.gsivDec [] [] long []).wellFormed lim64 = false ∧
    (Instr.gsivDec [] [] [] long).wellFormed lim64 = false := by decide

theorem test_wellFormed_s2v :
    (Instr.s2v long [] []).wellFormed lim64 = false ∧ (Instr.s2v [] [[], [], []] []).wellFormed lim64 = false ∧
    (Instr.s2v [] [[], long] []).wellFormed lim64 = false ∧ (Instr.s2v [] [] long).wellFormed lim64 = false := by decide

/-- The forms with no variable field are well-formed. -/
theorem test_wellFormed_blocks :
    (Instr.dbl Block.zero).wellFormed lim64 = true ∧ (Instr.pmul Block.zero Block.zero).wellFormed lim64 = true ∧
    (Instr.cteq Block.zero Block.zero).wellFormed lim64 = true ∧ Instr.clr.wellFormed lim64 = true := by decide

/-! ### Results: vectors of 95_test_vectors.md and 96_test_vectors_modes.md -/

/-- R111 example. -/
theorem test_dbl_top_bit :
    toy (hx 17 0x0180000000000000000000000000000000) =
      some (0, false, (hx 16 0x00000000000000000000000000000087)) := by decide +kernel

/-- Program 3, row 4. -/
theorem test_dbl_carries :
    toy (hx 17 0x01a0a3dead837d7f11233d3ff1e30dff81) =
      some (0, false, (hx 16 0x4147bd5b06fafe22467a7fe3c61bff85)) := by decide +kernel

/-- R118 example. -/
theorem test_pmul_one_one :
    toy (hx 33 0x020100000000000000000000000000000001000000000000000000000000000000) =
      some (0, false, (hx 16 0x01000000000000000000000000000492)) := by decide +kernel

/-- Program 5, row 1. -/
theorem test_pmul_rfc :
    toy (hx 33 0x024f4f95668c83dfb6401762bb2d01a26225629347589242761d31f826ba4b757b) =
      some (0, false, (hx 16 0xcedac64537ff50989c16011551086d77)) := by decide +kernel

/-- Program 3, row 9. -/
theorem test_cteq_equal :
    toy (hx 33 0x0343a3953901f3e5b416a763f48f5f378d43a3953901f3e5b416a763f48f5f378d) =
      some (0, true, []) := by decide +kernel

/-- R221 example. -/
theorem test_cteq_last_bit :
    toy (hx 33 0x0385632d07c6e8f37f950acd320a2ecc9385632d07c6e8f37f950acd320a2ecc92) =
      some (0, false, []) := by decide +kernel

/-- Program 4, row 7. -/
theorem test_clr :
    toy (hx 1 0x0f) =
      some (0, false, []) := by decide +kernel

/-- V-CMAC-T. -/
theorem test_cmacInit :
    toy (hx 21 0x1010000000000102030405060708090a0b0c0d0e0f) =
      some (0, false, (hx 32 0x02060a0e12161a1e22262a2e32363a3e040c141c242c343c444c545c646c747c)) := by decide +kernel

/-- P11. -/
theorem test_cmacInit_no_key :
    toy (hx 5 0x1000000000) =
      some (1, false, []) := by decide +kernel

/-- V-CMAC-T-S0. -/
theorem test_cmacSum_empty :
    toy (hx 25 0x1110000000000102030405060708090a0b0c0d0e0f00000000) =
      some (0, false, (hx 16 0x0d17212b2d37414b4d67617b6d87819b)) := by decide +kernel

/-- Program 3, row 3. -/
theorem test_cmacSum_partial :
    toy (hx 30 0x1110000000000102030405060708090a0b0c0d0e0f05000000a0a1a2a3a4) =
      some (0, false, (hx 16 0xaeb9c087ad37414b4d67617b6d8781bb)) := by decide +kernel

/-- V-CMAC-T-M17. -/
theorem test_cmacSumm_straddles :
    toy (hx 58 0x1210000000000102030405060708090a0b0c0d0e0f11000000404142434445464748494a4b4c4d4e4f50f0e0d0c0b0a090807060504030201000) =
      some (0, false, (hx 16 0x2a8398d5c6eff481724b501d1e273cf9)) := by decide +kernel

/-- V-CMAC-T-M15. -/
theorem test_cmacSumm_short :
    toy (hx 56 0x1210000000000102030405060708090a0b0c0d0e0f0f000000404142434445464748494a4b4c4d4ef0e0d0c0b0a090807060504030201000) =
      some (0, false, (hx 16 0x4e596067727d84131621282f3a45015b)) := by decide +kernel

/-- Program 3, row 8. -/
theorem test_s2v_two_components :
    toy (hx 69 0x2010000000000102030405060708090a0b0c0d0e0f0200000005000000a0a1a2a3a414000000b0b1b2b3b4b5b6b7b8b9babbbcbdbebfc0c1c2c30700000000010203040506) =
      some (0, false, (hx 16 0x43a3953901f3e5b416a763f48f5f378d)) := by decide +kernel

/-- V-S2V-T. -/
theorem test_s2v_nothing :
    toy (hx 29 0x2010000000000102030405060708090a0b0c0d0e0f0000000000000000) =
      some (0, false, (hx 16 0x1d1729435d2749537d87b9c3bd571993)) := by decide +kernel

/-- Section 5.1, ad 1, pt 1. -/
theorem test_sivEnc :
    toy (hx 59 0x3020000000000102030405060708090a0b0c0d0e0f101112131415161718191a1b1c1d1e1f08000000f0f1f2f3f4f5f6f701000000a00100000000) =
      some (0, false, (hx 17 0xe568f4b07d683dd13b1d28207a0fd79be4)) := by decide +kernel

/-- Program 4, row 5. -/
theorem test_sivEnc_short_key :
    toy (hx 48 0x301f000000000102030405060708090a0b0c0d0e0f101112131415161718191a1b1c1d1e000000000000000000000000) =
      some (1, false, []) := by decide +kernel

/-- Section 5.1, ad 1, pt 1. -/
theorem test_sivDec :
    toy (hx 75 0x3120000000000102030405060708090a0b0c0d0e0f101112131415161718191a1b1c1d1e1f08000000f0f1f2f3f4f5f6f701000000a011000000e568f4b07d683dd13b1d28207a0fd79be4) =
      some (0, true, (hx 1 0x00)) := by decide +kernel

/-- Section 6.3, tag byte 8 bit 7. -/
theorem test_sivDec_tampered :
    toy (hx 91 0x3120000000000102030405060708090a0b0c0d0e0f101112131415161718191a1b1c1d1e1f08000000f0f1f2f3f4f5f6f701000000a02100000008dab482a851536daa12034627623a7a187a17c8a16eb35b58f58108e4da027c3b) =
      some (4, false, []) := by decide +kernel

/-- TOY, 16-byte key. -/
theorem test_gsivDerive :
    toy (hx 37 0x4010000000000102030405060708090a0b0c0d0e0f0c000000f0f1f2f3f4f5f6f7f8f9fafb) =
      some (0, false, (hx 32 0x010305f7fafdfcfb010305f7fafdfcfb010305f7fafdfcfb010305f7fafdfcfb)) := by decide +kernel

/-- P8. -/
theorem test_gsivDerive_24_byte_key :
    toy (hx 45 0x4018000000000102030405060708090a0b0c0d0e0f10111213141516170c000000f0f1f2f3f4f5f6f7f8f9fafb) =
      some (1, false, []) := by decide +kernel

/-- R193 example. -/
theorem test_pvHash_two_blocks :
    toy (hx 53 0x4125629347589242761d31f826ba4b757b200000004f4f95668c83dfb6401762bb2d01a262d1a24ddd2721d006bbe45f20d3c9f362) =
      some (0, false, (hx 16 0xf7a3b47b846119fae5b7866cf5e5b77e)) := by decide +kernel

/-- V-PVH. -/
theorem test_pvHash_partial :
    toy (hx 22 0x4125629347589242761d31f826ba4b757b0100000001) =
      some (0, false, (hx 16 0x7a2d31c5c6fa1faab6d577c81e5670b4)) := by decide +kernel

/-- R197 example. -/
theorem test_pvDigest :
    toy (hx 33 0x42d9b360279694941ac5dbc6987ada737700000000080000000100000000000000) =
      some (0, false, (hx 16 0xeb93b7740962c5e49d2a90a7dc5cec74)) := by decide +kernel

/-- V-PVD. -/
theorem test_pvDigest_ad :
    toy (hx 26 0x42d9b360279694941ac5dbc6987ada737701000000a000000000) =
      some (0, false, (hx 16 0x6d3eadaac654f7c5c1d6f5f7097888e9)) := by decide +kernel

/-- Section 5.3, ad 1, pt 1. -/
theorem test_gsivTag :
    toy (hx 47 0x4310000000000102030405060708090a0b0c0d0e0f0c000000f0f1f2f3f4f5f6f7f8f9fafb01000000a00100000000) =
      some (0, false, (hx 16 0x26bfa7ac58d88124d1b741c34fdca392)) := by decide +kernel

/-- P9. -/
theorem test_gsivTag_8_byte_nonce :
    toy (hx 41 0x4310000000000102030405060708090a0b0c0d0e0f08000000f0f1f2f3f4f5f6f70000000000000000) =
      some (2, false, []) := by decide +kernel

/-- Section 5.3, pt 1. -/
theorem test_gsivEnc :
    toy (hx 46 0x4410000000000102030405060708090a0b0c0d0e0f0c000000f0f1f2f3f4f5f6f7f8f9fafb000000000100000000) =
      some (0, false, (hx 17 0xdbe9db51d8e5f2cb42c3c9e6ede3bd0914)) := by decide +kernel

/-- Section 7. -/
theorem test_gsivEnc_13_byte_nonce :
    toy (hx 46 0x4410000000000102030405060708090a0b0c0d0e0f0d000000f0f1f2f3f4f5f6f7f8f9fafbfc0000000000000000) =
      some (2, false, []) := by decide +kernel

/-- Section 5.3, ad 1, pt 1. -/
theorem test_gsivDec :
    toy (hx 63 0x4510000000000102030405060708090a0b0c0d0e0f0c000000f0f1f2f3f4f5f6f7f8f9fafb01000000a011000000bf26bfa7ac58d88124d1b741c34fdca392) =
      some (0, true, (hx 1 0x00)) := by decide +kernel

/-- Section 7. -/
theorem test_gsivDec_15_bytes :
    toy (hx 60 0x4510000000000102030405060708090a0b0c0d0e0f0c000000f0f1f2f3f4f5f6f7f8f9fafb000000000f000000000000000000000000000000000000) =
      some (3, false, []) := by decide +kernel

/-- V-NEG-1: under the constant cipher the order of components does not show. -/
theorem test_s2v_constant_cipher :
    s2v constOracles (zeros 16) [[0xA0], [0xB0]] [] = s2v constOracles (zeros 16) [[0xB0], [0xA0]] [] := by
  decide +kernel

/-! ### The machine: one step -/

/-- A descriptor of CMAC.INIT with a key of sixteen zero bytes. -/
def initDesc : Bytes := 0x10 :: u32le 16 ++ zeros 16

/-- A BUSY core: CMAC.INIT with a legal key, presented after reset (phase KeyValidated). -/
def busyState : State := present initDesc State.reset

/-- An idle core that holds a result: 16 bytes in DOUT. -/
def doneState : State := finished .ok false (zeros 16) [] State.reset

/-- R224, R31: CLR erases a result; one step from a state that holds one. -/
theorem test_step_clr :
    step (doneState.withFetchWord 8 0x0F) = .next (finished .ok false [] [] State.reset) := rfl

/-- R234, R89: an all-zero descriptor is illegal; code 5. -/
theorem test_step_illegal : shown (step (State.reset.withFetchWord 8 0x00)) = some (5, false, []) := by decide

/-- R111 through a step of the machine, from a BUSY core: `withFetchWord` makes the next step run the command. -/
theorem test_step_dbl :
    shown (step (busyState.withFetchWord 16 0x8001)) = some (0, false, (bl 0x87).bytes) := by decide

/-- R268: a descriptor presented while BUSY is ignored (95_test_vectors.md program 6). -/
theorem test_step_busy : step (busyState.withHost [.start [0x0F]]) = .next busyState := rfl

/-- R261: reset while BUSY. -/
theorem test_step_reset : step (busyState.withHost [.reset]) = .next State.reset := rfl

/-- R27, R139: the phase after START of CMAC.INIT, with a legal key and with none. -/
theorem test_phase_after_start :
    busyState.phase = .keyValidated ∧ (present [0x10, 0, 0, 0, 0] State.reset).phase = .invalidKey := by decide

/-- R27: the next phases. -/
theorem test_phases_cmacInit :
    runsThrough busyState [.tagOrIVDerived, .done] := ⟨_, rfl, rfl, _, rfl, rfl, trivial⟩

/-- R34, R264: nothing happens after reset without a descriptor. -/
theorem test_step_idle : step State.reset = .next State.reset := rfl

/-! ### The assembler (R91, R92) -/

/-- R118's example. -/
theorem test_assemble_pmul :
    assemble "PMUL a=01000000000000000000000000000000, b=01000000000000000000000000000000" =
      some (hx 33 0x020100000000000000000000000000000001000000000000000000000000000000) := by decide +kernel

/-- The list form and `-`. -/
theorem test_assemble_s2v :
    assemble "S2V key=aa, comps=[b0 b1; -], final=-" =
      some (0x20 :: u32le 1 ++ [0xAA] ++ u32le 2 ++ u32le 2 ++ [0xB0, 0xB1] ++ u32le 0 ++ u32le 0) := by decide +kernel

/-- R92 (1): fields left out; a BLK field may not be. -/
theorem test_assemble_default :
    assemble "SIV.ENC key=aa, msg=bb" = assemble "SIV.ENC key=aa, nonce=-, ad=-, msg=bb" ∧
    assemble "SIV.ENC key=aa, msg=bb" ≠ none ∧ assemble "PMUL a=01000000000000000000000000000000" = none := by
  decide +kernel

/-- R92 (2), (3): a pseudo-form gives the same descriptor, and checks its key's length. -/
theorem test_assemble_pseudo :
    assemble "GSIV128.DERIVE key=00112233445566778899aabbccddeeff, nonce=0b" =
      assemble "GSIV.DERIVE key=00112233445566778899aabbccddeeff, nonce=0b" ∧
    assemble "GSIV.DERIVE key=00112233445566778899aabbccddeeff, nonce=0b" ≠ none ∧
    assemble "GSIV256.DERIVE key=00112233445566778899aabbccddeeff, nonce=0b" = none ∧
    assemble "SIV128.ENC key=00, msg=-" = none := by decide +kernel

/-! ### Witnesses: a state and operands for the hypotheses of each obligation that has any -/

theorem witness_StepRunsTheDecodedCommand :
    (State.reset.withHost [.start [0x0F]]).host = [.start [0x0F]] ∧ State.reset.busy = false ∧ decode [0x0F] = .ok .clr := by
  decide

theorem witness_IllegalDescriptorEndsInIllegalCommand_start :
    (State.reset.withHost [.start []]).host = [.start []] ∧ State.reset.busy = false ∧ decode [] = .error .empty := by
  decide

theorem witness_IllegalDescriptorEndsInIllegalCommand_present :
    (doneState.withHost [.present [0x0F, 0]]).host = [.present [0x0F, 0]] ∧ doneState.busy = false ∧
    decode [0x0F, 0] = .error .trailingBytes := by decide

theorem witness_StartWhileBusyIsIgnored :
    (busyState.withHost [.start [0x0F]]).host = [.start [0x0F]] ∧
    (busyState.withHost [.present [0x0F]]).host = [.present [0x0F]] ∧ busyState.busy = true := by decide

theorem witness_ResetAbandonsTheCommand :
    (busyState.withHost [.reset]).host = [.reset] ∧ (busyState.withHost [.reset]).busy = true := by decide

theorem witness_IdleCoreWaitsForTheHost :
    State.reset.busy = false ∧ State.reset.host = [] ∧ doneState.busy = false ∧
    (doneState.withHost [.wait]).host = [.wait] := by decide

/-- Strings of 64 bytes are within every MAX_LEN, two components within every MAX_COMP. -/
theorem witness_DecodeOfEncodeGivesTheCommand :
    (Instr.s2v (zeros 32) [[], zeros 64] (zeros 64)).wellFormed Config.limits = true ∧
    (Instr.gsivDec (zeros 16) (zeros 12) [] (zeros 64)).wellFormed Config.limits = true ∧
    (Instr.cmacInit (zeros 64)).wellFormed lim64 = true := by decide

theorem witness_EncodeOfDecodeGivesTheDescriptor :
    decodeWith lim64 [0x10, 1, 0, 0, 0, 0xAA] = .ok (.cmacInit [0xAA]) := by decide

/-- The bytes beside each block of opcodes; a length one above MAX_LEN after fields of exactly MAX_LEN bytes; a component
list cut at the first and at the last component, and a full one before the final string; a count one above MAX_COMP. -/
theorem witness_UnassignedAndOverlongAreIllegal :
    (∀ b ∈ [0x00, 0x04, 0x0E, 0x13, 0x1F, 0x21, 0x2F, 0x32, 0x3F, 0x46, 0xFF],
      (b : Byte) ∉ [0x01, 0x02, 0x03, 0x0F, 0x10, 0x11, 0x12, 0x20, 0x30, 0x31, 0x40, 0x41, 0x42, 0x43, 0x44, 0x45]) ∧
    (lim64.maxLen < 65 ∧ 65 < 2 ^ 32 ∧ (zeros 64).length ≤ lim64.maxLen) ∧
    ((∀ z ∈ ([] : List Bytes), z.length ≤ lim64.maxLen) ∧ ([] : List Bytes).length < 1 ∧ 1 ≤ lim64.maxComp) ∧
    ((∀ z ∈ [zeros 64], z.length ≤ lim64.maxLen) ∧ [zeros 64].length < 2 ∧ 2 ≤ lim64.maxComp) ∧
    ((∀ z ∈ [[], zeros 64], z.length ≤ lim64.maxLen) ∧ [[], zeros 64].length ≤ lim64.maxComp) ∧
    (lim64.maxComp < 3 ∧ 3 < 2 ^ 32) := by decide

theorem witness_TruncatedOrTrailingIsIllegal :
    Instr.clr.wellFormed Config.limits = true ∧ 0 < (encode .clr).length ∧
    (Instr.pvHash Block.zero [0xAA]).wellFormed Config.limits = true ∧
    21 < (encode (.pvHash Block.zero [0xAA])).length := by decide

/-- The key lengths that CmacInitCommitsTheSubkeys, CmacSumCommitsTheMac, CmacSummCommitsTheMaskedMac and
S2vCommitsTheSyntheticIv ask for. -/
theorem witness_CmacAndS2vCommands :
    ((zeros 16).length = 16 ∨ (zeros 16).length = 24 ∨ (zeros 16).length = 32) ∧
    ((zeros 24).length = 16 ∨ (zeros 24).length = 24 ∨ (zeros 24).length = 32) ∧
    ((zeros 32).length = 16 ∨ (zeros 32).length = 24 ∨ (zeros 32).length = 32) := by decide

theorem witness_CmacInitCommitsTheSubkeys : (zeros 16).length = 16 ∨ (zeros 16).length = 24 ∨ (zeros 16).length = 32 :=
  witness_CmacAndS2vCommands.1

theorem witness_CmacSumCommitsTheMac : (zeros 24).length = 16 ∨ (zeros 24).length = 24 ∨ (zeros 24).length = 32 :=
  witness_CmacAndS2vCommands.2.1

theorem witness_CmacSummCommitsTheMaskedMac : (zeros 32).length = 16 ∨ (zeros 32).length = 24 ∨ (zeros 32).length = 32 :=
  witness_CmacAndS2vCommands.2.2

theorem witness_S2vCommitsTheSyntheticIv : (zeros 16).length = 16 ∨ (zeros 16).length = 24 ∨ (zeros 16).length = 32 :=
  witness_CmacAndS2vCommands.1

theorem witness_SivEncCommitsCiphertextAndTag :
    ((zeros 32).length = 32 ∨ (zeros 32).length = 64) ∧ ((zeros 64).length = 32 ∨ (zeros 64).length = 64) := by decide

/-- A Block differs from itself XOR a Block that is not zero in byte 0. -/
theorem ne_xor_bit (t : Block) : t ≠ t.xor (Block.ofFn fun _ => 1) := by
  intro h
  have h0 : t.get 0 = (t.xor (Block.ofFn fun _ => 1)).get 0 := by rw [← h]
  rw [Block.xor_get _ _ (by decide), Block.get_ofFn _ (by decide)] at h0
  exact (by decide : ∀ b : Byte, b ≠ b ^^^ 1) _ h0

/-- Both outcomes of SIV.DEC: with an empty ciphertext the S2V value verifies, and another tag does not. -/
theorem witness_SivDecReleasesOnlyOnTagMatch :
    let mac := (zeros 32).take ((zeros 32).length / 2)
    let pt (tag : Block) := xorBytes [] (Config.oracles.KS ((zeros 32).drop ((zeros 32).length / 2)) (sivSeed tag) 0 .be128)
    ((zeros 32).length = 32 ∨ (zeros 32).length = 64) ∧
    (∃ tag, s2v Config.oracles mac ([] ++ []) (pt tag) = tag) ∧ ∃ tag, s2v Config.oracles mac ([] ++ []) (pt tag) ≠ tag := by
  intro mac pt
  have hpt : ∀ tag, pt tag = [] := fun _ => xorBytes_nil _
  refine ⟨by decide, ⟨s2v Config.oracles mac ([] ++ []) [], by rw [hpt]⟩,
    ⟨(s2v Config.oracles mac ([] ++ []) []).xor (Block.ofFn fun _ => 1), ?_⟩⟩
  rw [hpt]
  exact ne_xor_bit _

/-- The operands of the GSIV commands, both key lengths. -/
theorem witness_GsivCommands :
    (((zeros 16).length = 16 ∨ (zeros 16).length = 32) ∧ (zeros 12).length = 12) ∧
    (((zeros 32).length = 16 ∨ (zeros 32).length = 32) ∧ (zeros 12).length = 12) := by decide

theorem witness_GsivDeriveCommitsTheSubkeys :
    ((zeros 16).length = 16 ∨ (zeros 16).length = 32) ∧ (zeros 12).length = 12 := witness_GsivCommands.1

theorem witness_GsivTagCommitsTheTag :
    ((zeros 32).length = 16 ∨ (zeros 32).length = 32) ∧ (zeros 12).length = 12 := witness_GsivCommands.2

theorem witness_GsivEncCommitsCiphertextAndTag :
    ((zeros 16).length = 16 ∨ (zeros 16).length = 32) ∧ (zeros 12).length = 12 := witness_GsivCommands.1

/-- Both outcomes of GSIV.DEC. -/
theorem witness_GsivDecReleasesOnlyOnTagMatch :
    let authKey := gsivAuthKey Config.oracles (zeros 16) (zeros 12)
    let encKey := gsivEncKey Config.oracles (zeros 16) (zeros 12)
    let pt (tag : Block) := xorBytes [] (Config.oracles.KS encKey (gsivSeed tag) 0 .le32)
    ((zeros 16).length = 16 ∨ (zeros 16).length = 32) ∧ (zeros 12).length = 12 ∧
    (∃ tag, gsivTag Config.oracles authKey encKey (zeros 12) [] (pt tag) = tag) ∧
    ∃ tag, gsivTag Config.oracles authKey encKey (zeros 12) [] (pt tag) ≠ tag := by
  intro authKey encKey pt
  have hpt : ∀ tag, pt tag = [] := fun _ => xorBytes_nil _
  refine ⟨by decide, by decide, ⟨gsivTag Config.oracles authKey encKey (zeros 12) [] [], by rw [hpt]⟩,
    ⟨(gsivTag Config.oracles authKey encKey (zeros 12) [] []).xor (Block.ofFn fun _ => 1), ?_⟩⟩
  rw [hpt]
  exact ne_xor_bit _

/-- Key lengths beside and between the legal ones, for each of the three clauses. -/
theorem witness_WrongKeySizeIsRefused :
    (∀ n ∈ [0, 15, 17, 23, 25, 31, 33, 64], (zeros n).length ≠ 16 ∧ (zeros n).length ≠ 24 ∧ (zeros n).length ≠ 32) ∧
    (∀ n ∈ [0, 16, 31, 33, 48, 63], (zeros n).length ≠ 32 ∧ (zeros n).length ≠ 64) ∧
    ∀ n ∈ [0, 15, 17, 24, 31, 33], (zeros n).length ≠ 16 ∧ (zeros n).length ≠ 32 := by decide

/-- Nonce lengths beside the legal one; and an SIV command that answers a next state. -/
theorem witness_WrongNonceSizeIsRefused :
    (((zeros 16).length = 16 ∨ (zeros 16).length = 32) ∧ (zeros 11).length ≠ 12 ∧ (zeros 13).length ≠ 12) ∧
    (∃ t, exec (.sivEnc (zeros 32) (zeros 11) [] []) State.reset = .next t) ∧
    ∃ t, exec (.sivDec (zeros 32) (zeros 11) [] []) State.reset = .next t :=
  ⟨by decide, ⟨_, rfl⟩, ⟨_, rfl⟩⟩

/-- Fifteen bytes are short, sixteen are not; every clause's operands. -/
theorem witness_ShortInputIsRefused :
    ((zeros 15).length < 16 ∧ ((zeros 32).length = 32 ∨ (zeros 32).length = 64)) ∧
    ((zeros 15).length < 16 ∧ ((zeros 16).length = 16 ∨ (zeros 16).length = 32) ∧ (zeros 12).length = 12) ∧
    16 ≤ (zeros 16).length ∧ ∃ t, exec (.gsivDec [] [] [] (zeros 16)) State.reset = .next t :=
  ⟨by decide, by decide, by decide, ⟨_, rfl⟩⟩

/-- The empty message, a tail of one and of fifteen bytes after a block. -/
theorem witness_CmacChainsAndWhitens :
    (([] : Bytes).length < 16 ∧ (([] : List Block) = [] ∨ ([] : Bytes) ≠ [])) ∧
    ((zeros 1).length < 16 ∧ ([Block.zero] = [] ∨ zeros 1 ≠ [])) ∧
    ((zeros 15).length < 16 ∧ ([Block.zero] = [] ∨ zeros 15 ≠ [])) := by decide

theorem witness_CmacSummMasksTheLastSixteenBytes :
    (zeros 15).length < 16 ∧ 16 ≤ (zeros 16).length ∧ 0 < (zeros 16).length ∧ 16 ≤ (zeros 17).length ∧
    0 < (zeros 17).length - 16 := by decide

theorem witness_S2vFoldsInListOrder : 16 ≤ (zeros 16).length ∧ (zeros 15).length < 16 := by decide

theorem witness_SeedsChangeOnlyTheirBits : 8 < 16 ∧ 12 < 16 ∧ 15 < 16 ∧ 7 < 8 := by decide

theorem witness_GsivSubkeysAreHalvesOfCipherOutputs :
    ((zeros 16).length = 16 ∨ (zeros 16).length = 32) ∧ ((zeros 32).length = 16 ∨ (zeros 32).length = 32) ∧
    (zeros 12).length = 12 ∧ 5 < 6 := by decide

theorem witness_PolyvalAbsorbsPaddedBlocks :
    0 < (zeros 1).length ∧ (zeros 1).length < 16 ∧ 0 < (zeros 15).length ∧ (zeros 15).length < 16 := by decide

theorem witness_GsivTagMasksTheDigest : (zeros 12).length = 12 ∧ 11 < 12 ∧ (12 ≤ 14 ∧ 14 < 15) ∧ 7 < 8 := by decide

theorem witness_PaddingAppendsMarkerAndZeros : (zeros 0).length ≤ 15 ∧ (zeros 15).length ≤ 15 := by decide

theorem witness_SivRoundTrip :
    ((zeros 32).length = 32 ∨ (zeros 32).length = 64) ∧
    ∃ t, exec (.sivEnc (zeros 32) [] [] [0xAA]) State.reset = .next t := ⟨by decide, ⟨_, rfl⟩⟩

theorem witness_GsivRoundTrip :
    ((zeros 16).length = 16 ∨ (zeros 16).length = 32) ∧ (zeros 12).length = 12 ∧
    ∃ t, exec (.gsivEnc (zeros 16) (zeros 12) [] [0xAA]) State.reset = .next t := ⟨by decide, by decide, ⟨_, rfl⟩⟩

/-- A SIV.DEC that ends with EQ 1: the tag of the empty plaintext. -/
theorem witness_NoPlaintextWithoutVerification_siv :
    ∃ msg t, exec (.sivDec (zeros 32) [] [] msg) State.reset = .next t ∧ t.results.eq = true := by
  refine ⟨(s2v Config.oracles (zeros 16) [] []).bytes,
    finished .ok true [] (.ctrks (zeros 16) (sivSeed (s2v Config.oracles (zeros 16) [] [])) 0 .be128 ::
      s2vCalls Config.oracles (zeros 16) [] []) State.reset, ?_, rfl⟩
  have hs : ∀ b : Block, tagOf b.bytes = b := fun b => tagOf_append [] b
  have hc : ∀ b : Block, ctOf b.bytes = [] := fun b => ctOf_append [] b
  have hk : sivMacKey (zeros 32) = zeros 16 := by decide
  have he : sivEncKey (zeros 32) = zeros 16 := by decide
  have hq : ∀ b : Block, cteq b b = true := fun b => by simp [cteq]
  simp [exec, execSivDec, runToDone, maxMoves, moveSivDec, sivStart, sivKeyLen, shortInput, sivNonce, decSplit,
    sivKeystream, sivDecExpect, decVerify, s2vWorking, sivComps, accept, startClear, toPhase, record, commit, operandsOf,
    finished, hs, hc, hk, he, hq]

/-- A GSIV.DEC that ends with EQ 1: the tag of the empty plaintext. -/
theorem witness_NoPlaintextWithoutVerification_gsiv :
    ∃ msg t, exec (.gsivDec (zeros 16) (zeros 12) [] msg) State.reset = .next t ∧ t.results.eq = true := by
  let authKey := gsivAuthKey Config.oracles (zeros 16) (zeros 12)
  let encKey := gsivEncKey Config.oracles (zeros 16) (zeros 12)
  let tag := gsivTag Config.oracles authKey encKey (zeros 12) [] []
  refine ⟨tag.bytes, finished .ok true [] (gsivDeriveCalls (zeros 16) (zeros 12) ++
      [.ctrks encKey (gsivSeed tag) 0 .le32, .bco encKey (gsivTagInput authKey (zeros 12) [] [])]) State.reset, ?_, rfl⟩
  have hs : ∀ b : Block, tagOf b.bytes = b := fun b => tagOf_append [] b
  have hc : ∀ b : Block, ctOf b.bytes = [] := fun b => ctOf_append [] b
  have hq : ∀ b : Block, cteq b b = true := fun b => by simp [cteq]
  simp [exec, execGsivDec, runToDone, maxMoves, moveGsivDec, gsivKeyStart, gsivKeyLen, gsivNonceLen, gsivNonce, shortInput,
    gsivDeriveKeys, gsivTagTrace, gsivTagNow, gsivKeystream, decSplit, gsivDecExpect, decVerify, accept, startClear, toPhase,
    record, commit, operandsOf, finished, hs, hc, hq, authKey, encKey, tag]

/-- An oracle call of a command that completes (for the two statements about oracle calls). -/
theorem witness_OracleCalls :
    ∃ t, exec (.cmacInit (zeros 16)) State.reset = .next t ∧ OracleCall.bco (zeros 16) Block.zero ∈ t.calls :=
  ⟨finished .ok false _ [.bco (zeros 16) Block.zero] State.reset, rfl, by simp [finished]⟩

theorem witness_OracleCallCountsDependOnLengthsOnly :
    ∃ t, exec (.cmacInit (zeros 16)) State.reset = .next t := ⟨_, rfl⟩

theorem witness_OracleKeysHaveCipherLengths :
    ∃ t, exec (.cmacInit (zeros 16)) State.reset = .next t ∧ OracleCall.bco (zeros 16) Block.zero ∈ t.calls :=
  witness_OracleCalls

/-- A BUSY state that meets the invariant. -/
theorem busyState_inv : Inv busyState where
  results := by
    have h : busyState.results = Results.zero := rfl
    rw [h]; simp [Results.wf, Results.zero]
  scrubbed h := absurd h (by decide)
  cleared _ := rfl
  latched _ := ⟨.cmacInit (zeros 16), by decide, by decide, by decide⟩
  fits := by
    have hw : busyState.working = Working.zero := rfl
    rw [hw]; simp [Working.zero]
  noCalls _ := rfl

/-- An idle state with a result that meets the invariant. -/
theorem doneState_inv : Inv doneState where
  results := by
    have hm := Config.limits.maxLen_ge
    simp [doneState, finished, Results.wf]
  scrubbed _ := ⟨rfl, rfl⟩
  cleared h := absurd h (by decide)
  latched h := absurd h (by decide)
  fits := by simp [doneState, finished, Working.zero]
  noCalls h := absurd h (by decide)

theorem witness_StepKeepsTheInvariant : ∃ t, Inv busyState ∧ step busyState = .next t := ⟨_, busyState_inv, rfl⟩

theorem witness_StepNeverStops : Inv busyState ∧ Inv doneState := ⟨busyState_inv, doneState_inv⟩

theorem witness_RunningCommandReachesDone : Inv busyState ∧ busyState.busy = true ∧ busyState.host = [] :=
  ⟨busyState_inv, by decide, rfl⟩

theorem witness_PhasesFollowThePathOfTheCommand :
    (Instr.cmacInit (zeros 16)).wellFormed Config.limits = true ∧ State.reset.busy = false := by decide

theorem witness_AtomicCommandIsItsPhasesRunToDone : State.reset.busy = false ∧ doneState.busy = false := by decide

/-- A step after which the core is BUSY: the first of two moves of CMAC.INIT. -/
theorem witness_BusyCoreShowsClearedResults :
    ∃ t, Inv busyState ∧ step busyState = .next t ∧ t.busy = true := ⟨_, busyState_inv, rfl, rfl⟩

end Sys2Proof.Tests
end

section
/-! SUPPORT. The sizes of the working registers (10_state.md R29): what a command puts into CK, MACKEY, ENCKEY and PTBUF
fits. -/

namespace Sys2Proof.Machine

/-- CK, MACKEY, ENCKEY and PTBUF fit their registers. -/
structure Working.Fits (w : Working) : Prop where
  ck : w.ck.length ≤ 32
  mackey : w.mackey.length ≤ 32
  enckey : w.enckey.length ≤ 32
  ptbuf : w.ptbuf.length ≤ Config.limits.maxLen

/-- The clause of `Inv` about the working registers. -/
theorem Inv.working_fits {s : State} (h : Inv s) : s.working.Fits := by
  obtain ⟨hc, hm, he, hp⟩ := h.fits
  exact ⟨hc, hm, he, hp⟩

theorem bcoKeyLen_le {n : Nat} (h : bcoKeyLen n = true) : n ≤ 32 := by
  simp only [bcoKeyLen, Bool.or_eq_true, beq_iff_eq] at h; omega

theorem gsivKeyLen_le {n : Nat} (h : gsivKeyLen n = true) : n ≤ 32 := by
  simp only [gsivKeyLen, Bool.or_eq_true, beq_iff_eq] at h; omega

theorem sivKeyLen_le {n : Nat} (h : sivKeyLen n = true) : n ≤ 64 := by
  simp only [sivKeyLen, Bool.or_eq_true, beq_iff_eq] at h; omega

theorem length_sivMacKey_le (key : Bytes) : (sivMacKey key).length ≤ key.length / 2 := by
  simp [sivMacKey, memRead]

theorem length_sivEncKey (key : Bytes) : (sivEncKey key).length = key.length - key.length / 2 := by
  simp [sivEncKey, memRead]

theorem length_gsivEncKey (o : Oracles) (key nonce : Bytes) : (gsivEncKey o key nonce).length = key.length / 8 * 8 := by
  simp [gsivEncKey, gsivHalf, List.length_flatMap]

end Sys2Proof.Machine
end

section
/-! SUPPORT. The decoder as a whole: what it answers on the descriptor of a command, and what a command it answers says
about the descriptor (30_encoding.md R84, R88). -/

namespace Sys2Proof

/-- Sequencing of two readers succeeds when both do. -/
theorem bind_eq_ok {α β : Type} {x : Except Illegal α} {f : α → Except Illegal β} {b : β} :
    (x >>= f) = .ok b ↔ ∃ a, x = .ok a ∧ f a = .ok b := by
  cases x with
  | error e => simp [bind, Except.bind]
  | ok a => simp [bind_ok]

/-- Format A taken is what the encoder writes for the four strings it gave, and each fits (R84). -/
theorem readA_ok {lim : Limits} {t r key nonce ad msg : Bytes} (h : readA lim t = .ok ((key, nonce, ad, msg), r)) :
    t = encodeStr key ++ encodeStr nonce ++ encodeStr ad ++ encodeStr msg ++ r ∧
      (strOk lim key && strOk lim nonce && strOk lim ad && strOk lim msg) = true := by
  simp only [readA, bind_eq_ok, Prod.exists] at h
  obtain ⟨k, t₁, rk, n, t₂, rn, a, t₃, ra, m, t₄, rm, h⟩ := h
  cases h
  obtain ⟨rfl, hk⟩ := readStr_ok rk
  obtain ⟨rfl, hn⟩ := readStr_ok rn
  obtain ⟨rfl, ha⟩ := readStr_ok ra
  obtain ⟨rfl, hm⟩ := readStr_ok rm
  simp [hk, hn, ha, hm]

/-- The fields of a command taken are what the encoder writes for it, and the command is within the limits (R84). -/
theorem decodeFields_ok {lim : Limits} {op : Opcode} {t r : Bytes} {i : Instr}
    (h : decodeFields lim op t = .ok (i, r)) :
    i.opcode = op ∧ t = encodeFields i ++ r ∧ i.wellFormed lim = true := by
  cases op <;> simp only [decodeFields, bind_eq_ok, Prod.exists] at h
  case dbl =>
    obtain ⟨x, t₁, rx, h⟩ := h
    cases h
    exact ⟨rfl, readBlk_ok rx, rfl⟩
  case pmul | cteq =>
    obtain ⟨a, t₁, ra, b, t₂, rb, h⟩ := h
    cases h
    obtain rfl := readBlk_ok ra
    obtain rfl := readBlk_ok rb
    exact ⟨rfl, by simp [encodeFields], rfl⟩
  case clr =>
    cases h
    exact ⟨rfl, rfl, rfl⟩
  case cmacInit =>
    obtain ⟨key, t₁, rk, h⟩ := h
    cases h
    obtain ⟨ht, hk⟩ := readStr_ok rk
    exact ⟨rfl, ht, hk⟩
  case cmacSum | gsivDerive =>
    obtain ⟨key, t₁, rk, msg, t₂, rm, h⟩ := h
    cases h
    obtain ⟨rfl, hk⟩ := readStr_ok rk
    obtain ⟨rfl, hm⟩ := readStr_ok rm
    exact ⟨rfl, by simp [encodeFields], by simp [Instr.wellFormed, hk, hm]⟩
  case cmacSumm =>
    obtain ⟨key, t₁, rk, msg, t₂, rm, mask, t₃, rb, h⟩ := h
    cases h
    obtain ⟨rfl, hk⟩ := readStr_ok rk
    obtain ⟨rfl, hm⟩ := readStr_ok rm
    obtain rfl := readBlk_ok rb
    exact ⟨rfl, by simp [encodeFields], by simp [Instr.wellFormed, hk, hm]⟩
  case s2v =>
    obtain ⟨key, t₁, rk, comps, t₂, rc, fin, t₃, rf, h⟩ := h
    cases h
    obtain ⟨rfl, hk⟩ := readStr_ok rk
    obtain ⟨rfl, hc⟩ := readList_ok rc
    obtain ⟨rfl, hf⟩ := readStr_ok rf
    exact ⟨rfl, by simp [encodeFields], by simp [Instr.wellFormed, hk, hc, hf]⟩
  case pvHash =>
    obtain ⟨b, t₁, rb, data, t₂, rd, h⟩ := h
    cases h
    obtain rfl := readBlk_ok rb
    obtain ⟨rfl, hd⟩ := readStr_ok rd
    exact ⟨rfl, by simp [encodeFields], hd⟩
  case pvDigest =>
    obtain ⟨b, t₁, rb, ad, t₂, ra, pt, t₃, rp, h⟩ := h
    cases h
    obtain rfl := readBlk_ok rb
    obtain ⟨rfl, ha⟩ := readStr_ok ra
    obtain ⟨rfl, hp⟩ := readStr_ok rp
    exact ⟨rfl, by simp [encodeFields], by simp [Instr.wellFormed, ha, hp]⟩
  case sivEnc | sivDec | gsivTag | gsivEnc | gsivDec =>
    obtain ⟨k, n, a, m, t₁, rA, h⟩ := h
    cases h
    obtain ⟨ht, hwf⟩ := readA_ok rA
    exact ⟨rfl, ht, hwf⟩

/-- The fields of every well-formed command read back, whatever follows them (R84). -/
theorem decodeFields_encodeFields (i : Instr) : Laws.ReadBack.Statement i := by
  cases i with
  | dbl x => exact Laws.ReadBack.dbl x
  | pmul a b => exact Laws.ReadBack.pmul a b
  | cteq a b => exact Laws.ReadBack.cteq a b
  | clr => exact Laws.ReadBack.clr
  | cmacInit key => exact Laws.ReadBack.cmacInit key
  | cmacSum key msg => exact Laws.ReadBack.cmacSum key msg
  | cmacSumm key msg mask => exact Laws.ReadBack.cmacSumm key msg mask
  | s2v key comps fin => exact Laws.ReadBack.s2v key comps fin
  | sivEnc key nonce ad msg => exact Laws.ReadBack.sivEnc key nonce ad msg
  | sivDec key nonce ad msg => exact Laws.ReadBack.sivDec key nonce ad msg
  | gsivDerive key nonce => exact Laws.ReadBack.gsivDerive key nonce
  | pvHash h data => exact Laws.ReadBack.pvHash h data
  | pvDigest authKey ad pt => exact Laws.ReadBack.pvDigest authKey ad pt
  | gsivTag key nonce ad msg => exact Laws.ReadBack.gsivTag key nonce ad msg
  | gsivEnc key nonce ad msg => exact Laws.ReadBack.gsivEnc key nonce ad msg
  | gsivDec key nonce ad msg => exact Laws.ReadBack.gsivDec key nonce ad msg

/-- A descriptor that decodes is what the encoder writes for its command, and the command is within the limits (R88). -/
theorem decodeWith_ok {lim : Limits} {desc : Bytes} {i : Instr} (h : decodeWith lim desc = .ok i) :
    desc = encode i ∧ i.wellFormed lim = true := by
  cases desc with
  | nil => simp [decodeWith] at h
  | cons b t =>
    simp only [decodeWith] at h
    split at h
    · cases h
    · rename_i op hop
      split at h
      · cases h
      · rename_i j hf
        cases h
        obtain ⟨rfl, ht, hwf⟩ := decodeFields_ok hf
        exact ⟨by rw [encode, opcodeOf_some hop, ht, List.append_nil], hwf⟩
      · cases h

/-- The descriptor of a well-formed command decodes to it (R84, R88). -/
theorem decodeWith_encode {lim : Limits} {i : Instr} (h : i.wellFormed lim = true) :
    decodeWith lim (encode i) = .ok i := by
  have hf := decodeFields_encodeFields i lim [] h
  rw [List.append_nil] at hf
  simp only [decodeWith, encode, opcodeOf_byte, hf]

end Sys2Proof
end

section
/-! SUPPORT. The paths of the commands (10_state.md R27): where they begin and end, and the phases the length checks
lead to. -/

namespace Sys2Proof.Machine

/-! ### The phases the length checks and the comparison lead to -/

@[simp] theorem bcoKeyStart_phase (s : State) :
    (bcoKeyStart s).phase = if bcoKeyLen s.operands.klen then .keyValidated else .invalidKey := by
  unfold bcoKeyStart; split <;> rfl

@[simp] theorem sivStart_phase (s : State) :
    (sivStart s).phase = if sivKeyLen s.operands.klen then .keyValidated else .invalidKey := by
  unfold sivStart; split <;> rfl

@[simp] theorem gsivKeyStart_phase (s : State) :
    (gsivKeyStart s).phase = if gsivKeyLen s.operands.klen then .keyValidated else .invalidKey := by
  unfold gsivKeyStart; split <;> rfl

@[simp] theorem gsivNonce_phase (s : State) :
    (gsivNonce s).phase = if gsivNonceLen s.operands.nlen then .nonceValidated else .invalidNonce := by
  unfold gsivNonce; split <;> rfl

@[simp] theorem decVerify_phase (s : State) : (decVerify s).phase = .done := by
  unfold decVerify; split <;> rfl

/-- The path of a command begins with the phase in which phase Start leaves it. -/
theorem pathTaken_eq_beginCommand_phase_cons (i : Instr) (s : State) :
    ∃ ps, pathTaken i = (beginCommand i s).phase :: ps := by
  cases i
  case dbl | pmul | cteq | clr | pvHash | pvDigest => exact ⟨[], rfl⟩
  all_goals
    simp only [pathTaken, beginCommand, startWork, Instr.opcode, bcoKeyStart_phase, sivStart_phase,
      gsivKeyStart_phase, accept_operands, operandsOf]
    split_ifs <;> simp_all

/-- Every path ends in Done. -/
theorem getLast?_pathTaken (i : Instr) : (pathTaken i).getLast? = some .done := by
  cases i <;> simp only [pathTaken] <;> (try split_ifs) <;> rfl

/-- No path goes on after Done. -/
theorem not_done_suffix_pathTaken {i : Instr} {q : Phase} {ps : List Phase} : ¬ .done :: q :: ps <:+ pathTaken i := by
  cases i <;> simp only [pathTaken] <;> (try split_ifs) <;> simp [List.suffix_cons_iff]

/-- No path comes back to Start. -/
theorem start_notMem_pathTaken (i : Instr) : .start ∉ pathTaken i := by
  cases i <;> simp only [pathTaken] <;> (try split_ifs) <;> decide

end Sys2Proof.Machine
end

section
/-! SUPPORT. What one move of a running command can do, said once for all sixteen commands. -/

namespace Sys2Proof.Machine

/-- What a move from `s` can do: pass the nonce check, work in the working registers within their sizes, or commit
results that agree with each other. -/
inductive MoveEffect (s : State) : State → Prop
  | validates {p : Phase} (from_key : s.phase = .keyValidated) (to_nonce : p = .nonceValidated ∨ p = .invalidNonce) :
      MoveEffect s (toPhase p s)
  | works {t : State} (phase : t.phase = .tagOrIVDerived ∨ t.phase = .keystreamApplied ∨ t.phase = .verifyTag)
      (results : t.results = s.results) (fits : t.working.Fits) : MoveEffect s t
  | commits {st : Status} {eq : Bool} {out : Bytes} {u : State}
      (wf : Results.wf ⟨st, eq, out.length, out⟩ = true) : MoveEffect s (commit st eq out u)

/-- Results with status Ok agree when DOUT is within its capacity (R24). -/
theorem Results.wf_ok {eq : Bool} {out : Bytes} (h : out.length ≤ Config.limits.maxLen + 16) :
    Results.wf ⟨.ok, eq, out.length, out⟩ = true := by simp [Results.wf, h]

/-- The results of an error agree (R236). -/
theorem Results.wf_error (e : Status) : Results.wf ⟨e, false, ([] : Bytes).length, []⟩ = true := by simp [Results.wf]

/-! ### The moves many commands share -/

section
variable {o : Oracles} {s : State}

theorem raise_effect (e : Status) (u : State) : MoveEffect s (raise e u) := .commits (Results.wf_error e)

/-- A command that commits one Block. -/
theorem commit_block_effect (b : Block) : MoveEffect s (commit .ok false b.bytes s) :=
  .commits (Results.wf_ok (by simp))

/-- CMAC.INIT commits two Blocks, and MAX_LEN is at least 64 (R7). -/
theorem commit_block_pair_effect (a b : Block) : MoveEffect s (commit .ok false (a.bytes ++ b.bytes) s) := by
  have := Config.limits.maxLen_ge
  exact .commits (Results.wf_ok (by simp; omega))

/-- A command that commits `ct || tag`, the ciphertext in PTBUF. -/
theorem commit_ptbuf_block_effect (hf : s.working.Fits) (b : Block) :
    MoveEffect s (commit .ok false (s.working.ptbuf ++ b.bytes) s) :=
  .commits (Results.wf_ok (by simpa using hf.ptbuf))

theorem sivNonce_effect (h : s.phase = .keyValidated) : MoveEffect s (sivNonce s) := .validates h (.inl rfl)

theorem gsivNonce_effect (h : s.phase = .keyValidated) : MoveEffect s (gsivNonce s) := by
  unfold gsivNonce
  split
  · exact .validates h (.inl rfl)
  · exact .validates h (.inr rfl)

theorem cmacInitDerive_effect (hf : s.working.Fits) (hk : bcoKeyLen s.operands.key.length = true) :
    MoveEffect s (cmacInitDerive o s) :=
  .works (.inl rfl) rfl { hf with ck := bcoKeyLen_le hk }

theorem cmacDerive_effect (msg : Bytes) (hf : s.working.Fits) (hk : bcoKeyLen s.operands.key.length = true) :
    MoveEffect s (cmacDerive o msg s) :=
  .works (.inl rfl) rfl { hf with ck := bcoKeyLen_le hk }

theorem s2vDerive_effect (hf : s.working.Fits) (hk : bcoKeyLen s.operands.key.length = true) :
    MoveEffect s (s2vDerive o s) :=
  .works (.inl rfl) rfl { hf with ck := bcoKeyLen_le hk }

theorem sivEncTag_effect (hf : s.working.Fits) : MoveEffect s (sivEncTag o s) :=
  .works (.inl rfl) rfl { hf with ck := hf.mackey }

theorem decSplit_fits (hf : s.working.Fits) : (decSplit s).working.Fits := ⟨hf.ck, hf.mackey, hf.enckey, hf.ptbuf⟩

theorem decSplit_effect (hf : s.working.Fits) : MoveEffect s (decSplit s) := .works (.inl rfl) rfl (decSplit_fits hf)

theorem sivDecExpect_effect (hf : s.working.Fits) : MoveEffect s (sivDecExpect o s) :=
  .works (.inr (.inr rfl)) rfl { hf with ck := hf.mackey }

theorem gsivDecExpect_effect (hf : s.working.Fits) : MoveEffect s (gsivDecExpect o s) :=
  .works (.inr (.inr rfl)) rfl ⟨hf.ck, hf.mackey, hf.enckey, hf.ptbuf⟩

/-- A keystream pass over at most MAX_LEN bytes: PTBUF holds as many bytes as the data. -/
theorem length_keystream_le {data key : Bytes} {seed : Block} {inc : Inc} (hd : data.length ≤ Config.limits.maxLen) :
    (xorBytes data (o.KS key seed data.length inc)).length ≤ Config.limits.maxLen := by simpa using hd

theorem sivKeystream_effect {data : Bytes} (hf : s.working.Fits) (hd : data.length ≤ Config.limits.maxLen) :
    MoveEffect s (sivKeystream o data s) :=
  .works (.inr (.inl rfl)) rfl { hf with ptbuf := length_keystream_le hd }

theorem gsivKeystream_effect {data : Bytes} (hf : s.working.Fits) (hd : data.length ≤ Config.limits.maxLen) :
    MoveEffect s (gsivKeystream o data s) :=
  .works (.inr (.inl rfl)) rfl { hf with ptbuf := length_keystream_le hd }

/-- The derivation keeps the sizes: ENCKEY is as long as the master key (R181). -/
theorem gsivDeriveKeys_fits (hf : s.working.Fits) (hk : gsivKeyLen s.operands.key.length = true) :
    (gsivDeriveKeys o s).working.Fits := by
  have hl : (gsivEncKey o s.operands.key s.operands.nonce).length ≤ 32 := by
    rw [length_gsivEncKey]; have := gsivKeyLen_le hk; omega
  exact { hf with enckey := hl }

theorem gsivEncTag_effect (hf : s.working.Fits) (hk : gsivKeyLen s.operands.key.length = true) :
    MoveEffect s (gsivEncTag o s) :=
  have hd := gsivDeriveKeys_fits (o := o) hf hk
  .works (.inl rfl) rfl ⟨hd.ck, hd.mackey, hd.enckey, hd.ptbuf⟩

theorem gsivDeriveKeys_effect (hf : s.working.Fits) (hk : gsivKeyLen s.operands.key.length = true) :
    MoveEffect s (toPhase .tagOrIVDerived (gsivDeriveKeys o s)) :=
  .works (.inl rfl) rfl (gsivDeriveKeys_fits hf hk)

theorem gsivDeriveKeys_decSplit_effect (hf : s.working.Fits) (hk : gsivKeyLen s.operands.key.length = true) :
    MoveEffect s (gsivDeriveKeys o (decSplit s)) :=
  .works (.inl rfl) rfl (gsivDeriveKeys_fits (decSplit_fits hf) hk)

/-- GSIV.DERIVE commits `authKey || encKey`, at most 48 bytes, and MAX_LEN is at least 64 (R7). -/
theorem commit_subkeys_effect (hf : s.working.Fits) :
    MoveEffect s (commit .ok false (s.working.authkey.bytes ++ s.working.enckey) s) := by
  have := hf.enckey
  have := Config.limits.maxLen_ge
  exact .commits (Results.wf_ok (by simp; omega))

theorem decVerify_effect (hf : s.working.Fits) : MoveEffect s (decVerify s) := by
  have := hf.ptbuf
  unfold decVerify
  split
  · exact .commits (Results.wf_ok (by omega))
  · exact raise_effect _ _

end

/-! ### The steps along each path (R27), with the length checks they depend on (R231 to R233) -/

/-- A step along a path is its first, or a step along the rest. -/
theorem pair_suffix_cons_iff {p q a b : Phase} {ps l : List Phase} :
    p :: q :: ps <:+ a :: b :: l ↔ (p = a ∧ q = b ∧ ps = l) ∨ p :: q :: ps <:+ b :: l := by
  simp only [List.suffix_cons_iff (l₁ := p :: q :: ps), List.cons.injEq]

/-- A path of one phase has no step. -/
theorem not_pair_suffix_singleton {p q a : Phase} {ps : List Phase} : ¬ p :: q :: ps <:+ [a] := fun h => by
  simpa using h.length_le

section
variable {key nonce ad msg : Bytes} {p q : Phase} {ps : List Phase}

/-- CMAC.INIT, and CMAC.SUM, CMAC.SUMM, S2V, whose path is the same. -/
theorem cmacInit_edges (h : p :: q :: ps <:+ pathTaken (.cmacInit key)) :
    (p = .invalidKey ∧ q = .done) ∨ (p = .keyValidated ∧ q = .tagOrIVDerived ∧ bcoKeyLen key.length = true) ∨
    (p = .tagOrIVDerived ∧ q = .done) := by
  simp only [pathTaken] at h
  split_ifs at h <;> simp only [pair_suffix_cons_iff, not_pair_suffix_singleton, or_false] at h <;> grind

theorem sivEnc_edges (h : p :: q :: ps <:+ pathTaken (.sivEnc key nonce ad msg)) :
    (p = .invalidKey ∧ q = .done) ∨ (p = .keyValidated ∧ q = .nonceValidated) ∨
    (p = .nonceValidated ∧ q = .tagOrIVDerived) ∨ (p = .tagOrIVDerived ∧ q = .keystreamApplied) ∨
    (p = .keystreamApplied ∧ q = .done) := by
  simp only [pathTaken] at h
  split_ifs at h <;> simp only [pair_suffix_cons_iff, not_pair_suffix_singleton, or_false] at h <;> grind

theorem sivDec_edges (h : p :: q :: ps <:+ pathTaken (.sivDec key nonce ad msg)) :
    (p = .invalidKey ∧ q = .done) ∨ (p = .keyValidated ∧ q = .nonceValidated) ∨
    (p = .nonceValidated ∧ q = .done ∧ shortInput msg.length = true) ∨
    (p = .nonceValidated ∧ q = .tagOrIVDerived ∧ shortInput msg.length = false) ∨
    (p = .tagOrIVDerived ∧ q = .keystreamApplied) ∨ (p = .keystreamApplied ∧ q = .verifyTag) ∨
    (p = .verifyTag ∧ q = .done) := by
  simp only [pathTaken] at h
  split_ifs at h <;> simp only [pair_suffix_cons_iff, not_pair_suffix_singleton, or_false] at h <;> grind

/-- GSIV.DERIVE, and GSIV.TAG, whose path is the same. -/
theorem gsivDerive_edges (h : p :: q :: ps <:+ pathTaken (.gsivDerive key nonce)) :
    (p = .invalidKey ∧ q = .done) ∨
    (p = .keyValidated ∧ q = if gsivNonceLen nonce.length then .nonceValidated else .invalidNonce) ∨
    (p = .invalidNonce ∧ q = .done) ∨
    (p = .nonceValidated ∧ q = .tagOrIVDerived ∧ gsivKeyLen key.length = true) ∨ (p = .tagOrIVDerived ∧ q = .done) := by
  simp only [pathTaken] at h
  split_ifs at h <;> simp only [pair_suffix_cons_iff, not_pair_suffix_singleton, or_false] at h <;> grind

theorem gsivEnc_edges (h : p :: q :: ps <:+ pathTaken (.gsivEnc key nonce ad msg)) :
    (p = .invalidKey ∧ q = .done) ∨
    (p = .keyValidated ∧ q = if gsivNonceLen nonce.length then .nonceValidated else .invalidNonce) ∨
    (p = .invalidNonce ∧ q = .done) ∨
    (p = .nonceValidated ∧ q = .tagOrIVDerived ∧ gsivKeyLen key.length = true) ∨
    (p = .tagOrIVDerived ∧ q = .keystreamApplied) ∨ (p = .keystreamApplied ∧ q = .done) := by
  simp only [pathTaken] at h
  split_ifs at h <;> simp only [pair_suffix_cons_iff, not_pair_suffix_singleton, or_false] at h <;> grind

theorem gsivDec_edges (h : p :: q :: ps <:+ pathTaken (.gsivDec key nonce ad msg)) :
    (p = .invalidKey ∧ q = .done) ∨
    (p = .keyValidated ∧ q = if gsivNonceLen nonce.length then .nonceValidated else .invalidNonce) ∨
    (p = .invalidNonce ∧ q = .done) ∨
    (p = .nonceValidated ∧ q = .done ∧ shortInput msg.length = true) ∨
    (p = .nonceValidated ∧ q = .tagOrIVDerived ∧ gsivKeyLen key.length = true ∧ shortInput msg.length = false) ∨
    (p = .tagOrIVDerived ∧ q = .keystreamApplied) ∨ (p = .keystreamApplied ∧ q = .verifyTag) ∨
    (p = .verifyTag ∧ q = .done) := by
  simp only [pathTaken] at h
  split_ifs at h <;> simp only [pair_suffix_cons_iff, not_pair_suffix_singleton, or_false] at h <;> grind

end

/-! ### Every move of every command -/

/-- The last operand of a well-formed command is at most MAX_LEN bytes (R81). -/
theorem length_le_maxLen_of_and_strOk {b : Bool} {t : Bytes} (h : (b && strOk Config.limits t) = true) :
    t.length ≤ Config.limits.maxLen := (Config.limits.fits_iff _).1 (Bool.and_eq_true_iff.1 h).2

theorem length_ctOf_le_maxLen_of_and_strOk {b : Bool} {t : Bytes} (h : (b && strOk Config.limits t) = true) :
    (ctOf t).length ≤ Config.limits.maxLen := by
  rw [length_ctOf]
  exact (Nat.sub_le ..).trans (length_le_maxLen_of_and_strOk h)

/-- What a move of a running command does: it goes to the next phase of the path (R26, R27), by one of the effects of
`MoveEffect`. -/
theorem moveOf_follows (o : Oracles) {i : Instr} {s : State} {q : Phase} {ps : List Phase}
    (hops : s.operands = operandsOf i) (hpath : s.phase :: q :: ps <:+ pathTaken i) :
    ∃ t, moveOf o i.opcode s = some t ∧ t.phase = q ∧
      (i.wellFormed Config.limits = true → s.working.Fits → MoveEffect s t) := by
  obtain ⟨phase, results, operands, working, calls, host⟩ := s
  cases hops
  cases i
  case dbl | pmul | cteq | clr | pvHash | pvDigest => exact absurd hpath not_pair_suffix_singleton
  case cmacInit =>
    obtain ⟨rfl, rfl⟩ | ⟨rfl, rfl, hk⟩ | ⟨rfl, rfl⟩ := cmacInit_edges hpath
    · exact ⟨_, rfl, rfl, fun _ _ => raise_effect _ _⟩
    · exact ⟨_, rfl, rfl, fun _ hf => cmacInitDerive_effect hf hk⟩
    · exact ⟨_, rfl, rfl, fun _ _ => commit_block_pair_effect _ _⟩
  case cmacSum | cmacSumm =>
    obtain ⟨rfl, rfl⟩ | ⟨rfl, rfl, hk⟩ | ⟨rfl, rfl⟩ := cmacInit_edges hpath
    · exact ⟨_, rfl, rfl, fun _ _ => raise_effect _ _⟩
    · exact ⟨_, rfl, rfl, fun _ hf => cmacDerive_effect _ hf hk⟩
    · exact ⟨_, rfl, rfl, fun _ _ => commit_block_effect _⟩
  case s2v =>
    obtain ⟨rfl, rfl⟩ | ⟨rfl, rfl, hk⟩ | ⟨rfl, rfl⟩ := cmacInit_edges hpath
    · exact ⟨_, rfl, rfl, fun _ _ => raise_effect _ _⟩
    · exact ⟨_, rfl, rfl, fun _ hf => s2vDerive_effect hf hk⟩
    · exact ⟨_, rfl, rfl, fun _ _ => commit_block_effect _⟩
  case sivEnc =>
    obtain ⟨rfl, rfl⟩ | ⟨rfl, rfl⟩ | ⟨rfl, rfl⟩ | ⟨rfl, rfl⟩ | ⟨rfl, rfl⟩ := sivEnc_edges hpath
    · exact ⟨_, rfl, rfl, fun _ _ => raise_effect _ _⟩
    · exact ⟨_, rfl, rfl, fun _ _ => sivNonce_effect rfl⟩
    · exact ⟨_, rfl, rfl, fun _ hf => sivEncTag_effect hf⟩
    · exact ⟨_, rfl, rfl, fun hwf hf => sivKeystream_effect hf (length_le_maxLen_of_and_strOk hwf)⟩
    · exact ⟨_, rfl, rfl, fun _ hf => commit_ptbuf_block_effect hf _⟩
  case sivDec =>
    obtain ⟨rfl, rfl⟩ | ⟨rfl, rfl⟩ | ⟨rfl, rfl, hm⟩ | ⟨rfl, rfl, hm⟩ | ⟨rfl, rfl⟩ | ⟨rfl, rfl⟩ | ⟨rfl, rfl⟩ :=
      sivDec_edges hpath
    · exact ⟨_, rfl, rfl, fun _ _ => raise_effect _ _⟩
    · exact ⟨_, rfl, rfl, fun _ _ => sivNonce_effect rfl⟩
    · exact ⟨_, congrArg some (if_pos hm), rfl, fun _ _ => raise_effect _ _⟩
    · exact ⟨_, congrArg some (if_neg (Bool.eq_false_iff.1 hm)), rfl, fun _ hf => decSplit_effect hf⟩
    · exact ⟨_, rfl, rfl, fun hwf hf => sivKeystream_effect hf (length_ctOf_le_maxLen_of_and_strOk hwf)⟩
    · exact ⟨_, rfl, rfl, fun _ hf => sivDecExpect_effect hf⟩
    · exact ⟨_, rfl, decVerify_phase _, fun _ hf => decVerify_effect hf⟩
  case gsivDerive =>
    obtain ⟨rfl, rfl⟩ | ⟨rfl, rfl⟩ | ⟨rfl, rfl⟩ | ⟨rfl, rfl, hk⟩ | ⟨rfl, rfl⟩ := gsivDerive_edges hpath
    · exact ⟨_, rfl, rfl, fun _ _ => raise_effect _ _⟩
    · exact ⟨_, rfl, gsivNonce_phase _, fun _ _ => gsivNonce_effect rfl⟩
    · exact ⟨_, rfl, rfl, fun _ _ => raise_effect _ _⟩
    · exact ⟨_, rfl, rfl, fun _ hf => gsivDeriveKeys_effect hf hk⟩
    · exact ⟨_, rfl, rfl, fun _ hf => commit_subkeys_effect hf⟩
  case gsivTag =>
    obtain ⟨rfl, rfl⟩ | ⟨rfl, rfl⟩ | ⟨rfl, rfl⟩ | ⟨rfl, rfl, hk⟩ | ⟨rfl, rfl⟩ := gsivDerive_edges hpath
    · exact ⟨_, rfl, rfl, fun _ _ => raise_effect _ _⟩
    · exact ⟨_, rfl, gsivNonce_phase _, fun _ _ => gsivNonce_effect rfl⟩
    · exact ⟨_, rfl, rfl, fun _ _ => raise_effect _ _⟩
    · exact ⟨_, rfl, rfl, fun _ hf => gsivEncTag_effect hf hk⟩
    · exact ⟨_, rfl, rfl, fun _ _ => commit_block_effect _⟩
  case gsivEnc =>
    obtain ⟨rfl, rfl⟩ | ⟨rfl, rfl⟩ | ⟨rfl, rfl⟩ | ⟨rfl, rfl, hk⟩ | ⟨rfl, rfl⟩ | ⟨rfl, rfl⟩ := gsivEnc_edges hpath
    · exact ⟨_, rfl, rfl, fun _ _ => raise_effect _ _⟩
    · exact ⟨_, rfl, gsivNonce_phase _, fun _ _ => gsivNonce_effect rfl⟩
    · exact ⟨_, rfl, rfl, fun _ _ => raise_effect _ _⟩
    · exact ⟨_, rfl, rfl, fun _ hf => gsivEncTag_effect hf hk⟩
    · exact ⟨_, rfl, rfl, fun hwf hf => gsivKeystream_effect hf (length_le_maxLen_of_and_strOk hwf)⟩
    · exact ⟨_, rfl, rfl, fun _ hf => commit_ptbuf_block_effect hf _⟩
  case gsivDec =>
    obtain ⟨rfl, rfl⟩ | ⟨rfl, rfl⟩ | ⟨rfl, rfl⟩ | ⟨rfl, rfl, hm⟩ | ⟨rfl, rfl, hk, hm⟩ | ⟨rfl, rfl⟩ | ⟨rfl, rfl⟩ |
      ⟨rfl, rfl⟩ := gsivDec_edges hpath
    · exact ⟨_, rfl, rfl, fun _ _ => raise_effect _ _⟩
    · exact ⟨_, rfl, gsivNonce_phase _, fun _ _ => gsivNonce_effect rfl⟩
    · exact ⟨_, rfl, rfl, fun _ _ => raise_effect _ _⟩
    · exact ⟨_, congrArg some (if_pos hm), rfl, fun _ _ => raise_effect _ _⟩
    · exact ⟨_, congrArg some (if_neg (Bool.eq_false_iff.1 hm)), rfl, fun _ hf =>
        gsivDeriveKeys_decSplit_effect hf hk⟩
    · exact ⟨_, rfl, rfl, fun hwf hf => gsivKeystream_effect hf (length_ctOf_le_maxLen_of_and_strOk hwf)⟩
    · exact ⟨_, rfl, rfl, fun _ hf => gsivDecExpect_effect hf⟩
    · exact ⟨_, rfl, decVerify_phase _, fun _ hf => decVerify_effect hf⟩

end Sys2Proof.Machine
end

section
/-! SUPPORT. A running command seen step by step: no move looks at the host's queue, a command left alone goes through
its path, and that is what `exec` runs at once (10_state.md R27). -/

namespace Sys2Proof.Machine

/-- In `s` the phases `ps` of command `i` are still to come; while there are any, `i` is latched. -/
structure OnPath (i : Instr) (ps : List Phase) (s : State) : Prop where
  suffix : s.phase :: ps <:+ pathTaken i
  latched : s.phase ≠ .done → s.operands = operandsOf i

/-! ### No move looks at the host's queue -/

section
variable (o : Oracles) (h : List HostAct) (s : State)

@[simp] theorem bcoKeyStart_withHost : bcoKeyStart (s.withHost h) = (bcoKeyStart s).withHost h := by
  rw [bcoKeyStart, bcoKeyStart, apply_ite (State.withHost h)]; rfl

@[simp] theorem sivStart_withHost : sivStart (s.withHost h) = (sivStart s).withHost h := by
  rw [sivStart, sivStart, apply_ite (State.withHost h)]; rfl

@[simp] theorem gsivKeyStart_withHost : gsivKeyStart (s.withHost h) = (gsivKeyStart s).withHost h := by
  rw [gsivKeyStart, gsivKeyStart, apply_ite (State.withHost h)]; rfl

@[simp] theorem gsivNonce_withHost : gsivNonce (s.withHost h) = (gsivNonce s).withHost h := by
  rw [gsivNonce, gsivNonce, apply_ite (State.withHost h)]; rfl

@[simp] theorem decVerify_withHost : decVerify (s.withHost h) = (decVerify s).withHost h := by
  rw [decVerify, decVerify, apply_ite (State.withHost h)]; rfl

/-- Phase Start leaves the queue alone. -/
theorem beginCommand_withHost (i : Instr) : beginCommand i (s.withHost h) = (beginCommand i s).withHost h := by
  have ha : accept i (s.withHost h) = (accept i s).withHost h := rfl
  cases i
  case dbl | pmul | cteq | clr | pvHash | pvDigest => rfl
  all_goals simp only [beginCommand, startWork, Instr.opcode, ha, bcoKeyStart_withHost, sivStart_withHost,
    gsivKeyStart_withHost]

/-- A move on a state with another queue is the move, with that queue. -/
theorem moveOf_withHost (op : Opcode) : moveOf o op (s.withHost h) = (moveOf o op s).map (State.withHost h) := by
  obtain ⟨phase, results, operands, working, calls, host⟩ := s
  cases op
  case dbl | pmul | cteq | clr | pvHash | pvDigest => rfl
  case cmacInit | cmacSum | cmacSumm | s2v | sivEnc => cases phase <;> rfl
  case sivDec =>
    cases phase
    case nonceValidated => simp only [moveOf, moveSivDec, Option.map_some, apply_ite (State.withHost h)]; rfl
    case verifyTag => exact congrArg some (decVerify_withHost _ _)
    all_goals rfl
  case gsivDec =>
    cases phase
    case keyValidated => exact congrArg some (gsivNonce_withHost _ _)
    case nonceValidated => simp only [moveOf, moveGsivDec, Option.map_some, apply_ite (State.withHost h)]; rfl
    case verifyTag => exact congrArg some (decVerify_withHost _ _)
    all_goals rfl
  case gsivDerive | gsivTag | gsivEnc =>
    cases phase
    case keyValidated => exact congrArg some (gsivNonce_withHost _ _)
    all_goals rfl

end

/-! ### The states along a command's path -/

/-- After phase Start the command has ended, or its operands are latched (R28). -/
theorem beginCommand_latches (i : Instr) (s : State) :
    (beginCommand i s).phase = .done ∨ (beginCommand i s).operands = operandsOf i := by
  cases i
  case dbl | pmul | cteq | clr | pvHash | pvDigest => exact .inl rfl
  case cmacInit | cmacSum | cmacSumm | s2v =>
    right; simp only [beginCommand, startWork, Instr.opcode, bcoKeyStart]; split <;> rfl
  case sivEnc | sivDec =>
    right; simp only [beginCommand, startWork, Instr.opcode, sivStart]; split <;> rfl
  case gsivDerive | gsivTag | gsivEnc | gsivDec =>
    right; simp only [beginCommand, startWork, Instr.opcode, gsivKeyStart]; split <;> rfl

theorem beginCommand_onPath (i : Instr) (s : State) :
    ∃ ps, pathTaken i = (beginCommand i s).phase :: ps ∧ OnPath i ps (beginCommand i s) := by
  obtain ⟨ps, hps⟩ := pathTaken_eq_beginCommand_phase_cons i s
  exact ⟨ps, hps, by rw [hps], (beginCommand_latches i s).resolve_left⟩

/-- With phases to come, the command is not done. -/
theorem OnPath.not_done {i : Instr} {q : Phase} {ps : List Phase} {s : State} (h : OnPath i (q :: ps) s) :
    s.phase ≠ .done := fun hd => not_done_suffix_pathTaken (hd ▸ h.suffix)

/-- With no phase to come, the command is done. -/
theorem OnPath.done {i : Instr} {s : State} (h : OnPath i [] s) : s.phase = .done := by
  have hl := getLast?_pathTaken i
  obtain ⟨l, hl'⟩ := h.suffix
  rw [← hl', List.getLast?_concat] at hl
  exact Option.some.inj hl

theorem OnPath.withHost {i : Instr} {ps : List Phase} {s : State} (h : OnPath i ps s) (l : List HostAct) :
    OnPath i ps (s.withHost l) := ⟨h.suffix, h.latched⟩

/-- A running command makes a move to the next phase of its path. -/
theorem OnPath.move (o : Oracles) {i : Instr} {q : Phase} {ps : List Phase} {s : State} (h : OnPath i (q :: ps) s) :
    ∃ t, moveOf o i.opcode s = some t ∧ t.phase = q ∧ OnPath i ps t := by
  have hops := h.latched h.not_done
  obtain ⟨t, hm, hq, -⟩ := moveOf_follows o hops h.suffix
  refine ⟨t, hm, hq, hq ▸ (List.suffix_cons _ _).trans h.suffix, fun hd => ?_⟩
  rcases moveOf_operands hm with ho | ⟨hp, -⟩
  · rw [ho, hops]
  · exact absurd hp hd

/-! ### Steps of the machine -/

/-- With phases to come, the core is BUSY. -/
theorem OnPath.busy {i : Instr} {q : Phase} {ps : List Phase} {s : State} (h : OnPath i (q :: ps) s) :
    s.busy = true := by
  by_contra hb
  rcases (State.busy_eq_false s).1 (Bool.eq_false_iff.2 hb) with hs | hd
  · exact start_notMem_pathTaken i (hs ▸ h.suffix.mem (List.mem_cons_self ..))
  · exact h.not_done hd

/-- With no host action, time passes. -/
theorem step_of_no_host {s : State} (h : s.host = []) : step s = idle s := by simp [step, portStep, h]

/-- Time passing on a running command is its move. -/
theorem OnPath.idle {i : Instr} {q : Phase} {ps : List Phase} {s t : State} (h : OnPath i (q :: ps) s)
    (hm : moveOf Config.oracles i.opcode s = some t) : Machine.idle s = .next t := by
  rw [Machine.idle, if_pos h.busy, advance_of_operands (h.latched h.not_done) hm]

theorem idle_of_done {s : State} (h : s.phase = .done) : idle s = .next s :=
  if_neg (by simp [State.busy, h])

/-- Waiting on a command that is done changes nothing but the queue. -/
theorem step_wait_of_done {s : State} (hd : s.phase = .done) (h : List HostAct) :
    step (s.withHost (.wait :: h)) = .next (s.withHost h) := idle_of_done (s := s.withHost h) hd

/-- Waiting on a running command is its move. -/
theorem OnPath.step_wait {i : Instr} {q : Phase} {ps : List Phase} {s t : State} (hp : OnPath i (q :: ps) s)
    (hm : moveOf Config.oracles i.opcode s = some t) (h : List HostAct) :
    step (s.withHost (.wait :: h)) = .next (t.withHost h) :=
  (hp.withHost h).idle (by rw [moveOf_withHost, hm, Option.map_some])

/-- A descriptor presented to an idle core begins its command. -/
theorem step_present {s : State} (hb : s.busy = false) (desc : Bytes) (h : List HostAct) :
    step (s.withHost (.present desc :: h)) = .next (present desc (s.withHost h)) :=
  if_neg (by simp [hb])

/-- START of a descriptor that decodes, on both ways of waiting for it. -/
theorem present_of_ok {desc : Bytes} {i : Instr} (h : decode desc = .ok i) (s : State) :
    present desc s = beginCommand i s := by simp only [present, h]

theorem issue_of_ok {desc : Bytes} {i : Instr} (h : decode desc = .ok i) (s : State) : issue desc s = exec i s := by
  simp only [issue, h]

/-- START of a descriptor that does not decode (R234). -/
theorem present_of_error {desc : Bytes} {e : Illegal} (h : decode desc = .error e) (s : State) :
    present desc s = rejectDescriptor s := by simp only [present, h]

theorem issue_of_error {desc : Bytes} {e : Illegal} (h : decode desc = .error e) (s : State) :
    issue desc s = .next (rejectDescriptor s) := by simp only [issue, h]

/-- A command left alone goes through the rest of its path (R27). -/
theorem OnPath.runsThrough {i : Instr} : ∀ {ps : List Phase} {s : State}, OnPath i ps s → s.host = [] →
    Machine.runsThrough s ps
  | [], _, _, _ => trivial
  | q :: ps, s, h, hh => by
    obtain ⟨t, hm, hq, ht⟩ := h.move Config.oracles
    exact ⟨t, by rw [step_of_no_host hh, h.idle hm], hq, ht.runsThrough (by rw [moveOf_host hm, hh])⟩

theorem core_run_succ {s t : State} (n : Nat) (h : step s = .next t) :
    Sys2Proof.core.run (n + 1) s = Sys2Proof.core.run n t := by
  have h' : Sys2Proof.core.step s = .next t := h
  simp only [Host.Core.run, h']

/-- Waiting after the end of a command uses up the waits. -/
theorem run_waits_of_done {s : State} (hd : s.phase = .done) (rest : List HostAct) : ∀ n : Nat,
    Sys2Proof.core.run n (s.withHost (List.replicate n .wait ++ rest)) = .next (s.withHost rest)
  | 0 => rfl
  | n + 1 => by
    rw [List.replicate_succ, List.cons_append, core_run_succ n (step_wait_of_done hd _), run_waits_of_done hd rest n]

/-- Waiting at least as long as the path on a running command is running it to Done. -/
theorem OnPath.run_waits {i : Instr} {ps : List Phase} {s : State} (h : OnPath i ps s) (rest : List HostAct) {n m : Nat}
    (hn : ps.length ≤ n) (hm : ps.length ≤ m) :
    Sys2Proof.core.run n (s.withHost (List.replicate n .wait ++ rest)) =
      runToDone (moveOf Config.oracles i.opcode) m (s.withHost rest) := by
  induction ps generalizing s n m with
  | nil => exact (run_waits_of_done h.done rest n).trans (runToDone_of_done _ _ (s := s.withHost rest) h.done).symm
  | cons q ps ih =>
    obtain ⟨n, rfl⟩ : ∃ k, n = k + 1 := Nat.exists_eq_add_one.2 (Nat.zero_lt_of_lt hn)
    obtain ⟨m, rfl⟩ : ∃ k, m = k + 1 := Nat.exists_eq_add_one.2 (Nat.zero_lt_of_lt hm)
    obtain ⟨t, ht, -, hp⟩ := h.move Config.oracles
    have ht' : moveOf Config.oracles i.opcode (s.withHost rest) = some (t.withHost rest) := by
      rw [moveOf_withHost, ht, Option.map_some]
    rw [List.replicate_succ, List.cons_append, core_run_succ n (h.step_wait ht _),
      runToDone_move _ _ (s := s.withHost rest) h.not_done ht']
    exact ih hp (Nat.le_of_succ_le_succ hn) (Nat.le_of_succ_le_succ hm)

/-- After phase Start at most five phases follow (R27). -/
theorem length_pathTaken_le (i : Instr) : (pathTaken i).length ≤ 6 := by
  cases i <;> simp only [pathTaken] <;> (try split_ifs) <;> decide

/-- Presenting a descriptor to an idle core and waiting five phases is START and waiting for DONE, whatever the host
does after. -/
theorem run_present_eq_issue {s : State} (hb : s.busy = false) (desc : Bytes) (rest : List HostAct) :
    Sys2Proof.core.run 6 (s.withHost (.present desc :: (List.replicate 5 .wait ++ rest))) =
      issue desc (s.withHost rest) := by
  rw [core_run_succ 5 (step_present hb desc _)]
  cases hd : decode desc with
  | error e =>
    rw [present_of_error hd, issue_of_error hd]
    exact run_waits_of_done (s := rejectDescriptor s) rfl rest 5
  | ok i =>
    obtain ⟨ps, hps, h⟩ := beginCommand_onPath i s
    have hn : ps.length ≤ 5 := by
      have := length_pathTaken_le i
      rw [hps, List.length_cons] at this; omega
    rw [present_of_ok hd, issue_of_ok hd, exec_eq_execWith, execWith, beginCommand_withHost, beginCommand_withHost]
    exact h.run_waits rest hn (hn.trans (by decide))

end Sys2Proof.Machine
end

section
/-! The settled statements about phases. -/

namespace Sys2Proof.Machine

/-- Settles O55: presenting begins the command in the first phase of its path, and a command left alone goes through the
rest. -/
theorem phasesFollowThePathOfTheCommand : Obligations.PhasesFollowThePathOfTheCommand := by
  intro i s hwf hb
  obtain ⟨ps, hps, h⟩ := beginCommand_onPath i (s.withHost [])
  have hstep : step (s.withHost [.present (encode i)]) = .next (beginCommand i (s.withHost [])) := by
    rw [step_present hb, present_of_ok (decodeWith_encode hwf)]
  rw [hps]
  exact ⟨_, hstep, rfl, h.runsThrough (by rw [beginCommand_withHost]; rfl)⟩

/-- Settles O56: on an idle core both sides run the command's moves to Done. -/
theorem atomicCommandIsItsPhasesRunToDone : Obligations.AtomicCommandIsItsPhasesRunToDone := by
  intro s desc hb
  have hstart : step (s.withHost [.start desc]) = issue desc (s.withHost []) := if_neg (by simp [hb])
  rw [hstart]
  simpa using run_present_eq_issue hb desc []

end Sys2Proof.Machine
end

section
/-! SUPPORT. The invariant: it holds where a command commits, phase Start establishes it, every move keeps it, and so
every host action does. -/

namespace Sys2Proof.Machine

/-! ### Where the invariant holds -/

/-- After a commit of results that agree, the core is idle and scrubbed (R30, R32). -/
theorem inv_commit {st : Status} {eq : Bool} {out : Bytes} (s : State)
    (h : Results.wf ⟨st, eq, out.length, out⟩ = true) : Inv (commit st eq out s) where
  results := h
  scrubbed _ := ⟨rfl, rfl⟩
  cleared hb := absurd hb (by simp)
  latched hb := absurd hb (by simp)
  fits := by simp [Working.zero]
  noCalls hp := absurd hp (by simp)

theorem inv_rejectDescriptor (s : State) : Inv (rejectDescriptor s) := inv_commit _ (Results.wf_error _)

theorem inv_reset : Inv State.reset where
  results := Results.wf_ok (out := []) (Nat.zero_le _)
  scrubbed _ := ⟨rfl, rfl⟩
  cleared hb := absurd hb (by decide)
  latched hb := absurd hb (by decide)
  fits := by simp [State.reset, Working.zero]
  noCalls _ := rfl

/-- The invariant says nothing of the host's queue. -/
theorem Inv.withHost {s : State} (h : Inv s) (l : List HostAct) : Inv (s.withHost l) :=
  ⟨h.results, h.scrubbed, h.cleared, h.latched, h.fits, h.noCalls⟩

/-- A command running on its path, with cleared results, working registers that fit and no call before validation, meets
the invariant. -/
theorem OnPath.inv {i : Instr} {ps : List Phase} {s : State} (h : OnPath i ps s)
    (hwf : i.wellFormed Config.limits = true) (hd : s.phase ≠ .done) (hres : s.results = Results.zero)
    (hfits : s.working.Fits)
    (hcalls : s.phase ∈ [Phase.keyValidated, .invalidKey, .nonceValidated, .invalidNonce] → s.calls = []) : Inv s where
  results := by rw [hres]; exact Results.wf_ok (out := []) (Nat.zero_le _)
  scrubbed hb := by
    rcases (State.busy_eq_false s).1 hb with hs | hd'
    · exact absurd (hs ▸ h.suffix.mem (List.mem_cons_self ..)) (start_notMem_pathTaken i)
    · exact absurd hd' hd
  cleared _ := hres
  latched _ := ⟨i, hwf, h.latched hd, h.suffix.mem (List.mem_cons_self ..)⟩
  fits := ⟨hfits.ck, hfits.mackey, hfits.enckey, hfits.ptbuf⟩
  noCalls := hcalls

/-- A BUSY core that meets the invariant runs a well-formed command, with at least one phase to come. -/
theorem Inv.onPath {s : State} (h : Inv s) (hb : s.busy = true) :
    ∃ i q ps, i.wellFormed Config.limits = true ∧ OnPath i (q :: ps) s := by
  obtain ⟨i, hwf, hops, hp⟩ := h.latched hb
  obtain ⟨l, ps, hl⟩ := List.append_of_mem hp
  have hs : OnPath i ps s := ⟨⟨l, hl.symm⟩, fun _ => hops⟩
  cases ps with
  | nil => exact absurd hb (by simp [State.busy, hs.done])
  | cons q ps => exact ⟨i, q, ps, hwf, hs⟩

/-! ### Phase Start -/

/-- The key check of phase Start on a command just latched, or the whole command when its path is Start to Done. -/
theorem beginCommand_cases (i : Instr) {s : State} (hf : s.working.Fits) :
    (∃ eq out, out.length ≤ 16 ∧ beginCommand i s = commit .ok eq out (accept i s)) ∨
    ((beginCommand i s).phase ≠ .done ∧ (beginCommand i s).results = Results.zero ∧ (beginCommand i s).calls = [] ∧
      (beginCommand i s).working.Fits) := by
  cases i
  case dbl | pmul | pvHash | pvDigest => exact .inl ⟨_, _, (Block.length_bytes _).le, rfl⟩
  case cteq | clr => exact .inl ⟨_, [], Nat.zero_le _, rfl⟩
  case cmacInit | cmacSum | cmacSumm | s2v =>
    right
    simp only [beginCommand, startWork, Instr.opcode, bcoKeyStart]
    split <;> exact ⟨by simp, rfl, rfl, hf⟩
  case gsivDerive | gsivTag | gsivEnc | gsivDec =>
    right
    simp only [beginCommand, startWork, Instr.opcode, gsivKeyStart]
    split <;> exact ⟨by simp, rfl, rfl, hf⟩
  case sivEnc key _ _ _ | sivDec key _ _ _ =>
    right
    simp only [beginCommand, startWork, Instr.opcode, sivStart]
    split
    · rename_i hk
      have hk : key.length ≤ 64 := sivKeyLen_le hk
      have hm := length_sivMacKey_le key
      have he := length_sivEncKey key
      exact ⟨by simp, rfl, rfl,
        { hf with mackey := by simp [operandsOf]; omega, enckey := by simp [operandsOf]; omega }⟩
    · exact ⟨by simp, rfl, rfl, hf⟩

theorem Inv.beginCommand {s : State} (h : Inv s) {i : Instr} (hwf : i.wellFormed Config.limits = true) :
    Inv (Machine.beginCommand i s) := by
  rcases beginCommand_cases i h.working_fits with ⟨eq, out, hl, hc⟩ | ⟨hd, hres, hcalls, hf⟩
  · rw [hc]
    exact inv_commit _ (Results.wf_ok (hl.trans (Nat.le_add_left ..)))
  · obtain ⟨ps, -, hp⟩ := beginCommand_onPath i s
    exact hp.inv hwf hd hres hf fun _ => hcalls

/-! ### Moves -/

/-- A move along the path keeps the invariant, whichever effect it has. -/
theorem Inv.effect {i : Instr} {q : Phase} {ps : List Phase} {s t : State} (h : Inv s)
    (hwf : i.wellFormed Config.limits = true) (hs : OnPath i (q :: ps) s) (ht : OnPath i ps t) (he : MoveEffect s t) :
    Inv t := by
  have hres := h.cleared hs.busy
  cases he with
  | validates hk hp =>
    exact ht.inv hwf (by rcases hp with rfl | rfl <;> simp) hres h.working_fits fun _ => h.noCalls (by simp [hk])
  | works hp hr hf =>
    have hp' : t.phase ≠ .done ∧ t.phase ∉ [Phase.keyValidated, .invalidKey, .nonceValidated, .invalidNonce] := by
      rcases hp with hp | hp | hp <;> simp [hp]
    exact ht.inv hwf hp'.1 (hr.trans hres) hf fun hv => absurd hv hp'.2
  | commits wf => exact inv_commit _ wf

/-- A running command that meets the invariant makes a move, and meets it again. -/
theorem Inv.move {i : Instr} {q : Phase} {ps : List Phase} {s : State} (h : Inv s)
    (hwf : i.wellFormed Config.limits = true) (hs : OnPath i (q :: ps) s) :
    ∃ t, moveOf Config.oracles i.opcode s = some t ∧ OnPath i ps t ∧ Inv t := by
  obtain ⟨t, hm, -, he⟩ := moveOf_follows Config.oracles (hs.latched hs.not_done) hs.suffix
  obtain ⟨t', hm', -, ht⟩ := hs.move Config.oracles
  obtain rfl : t = t' := Option.some.inj (hm.symm.trans hm')
  exact ⟨t, hm, ht, h.effect hwf hs ht (he hwf h.working_fits)⟩

/-- A command run to Done meets the invariant at its end. -/
theorem Inv.runToDone {i : Instr} {ps : List Phase} {s : State} {n : Nat} (h : Inv s)
    (hwf : i.wellFormed Config.limits = true) (hs : OnPath i ps s) (hn : ps.length ≤ n) :
    ∃ t, Machine.runToDone (moveOf Config.oracles i.opcode) n s = .next t ∧ Inv t := by
  induction ps generalizing s n with
  | nil => exact ⟨s, runToDone_of_done _ _ hs.done, h⟩
  | cons q ps ih =>
    obtain ⟨n, rfl⟩ : ∃ k, n = k + 1 := Nat.exists_eq_add_one.2 (Nat.zero_lt_of_lt hn)
    obtain ⟨t, hm, ht, hi⟩ := h.move hwf hs
    rw [runToDone_move _ _ hs.not_done hm]
    exact ih hi ht (Nat.le_of_succ_le_succ hn)

/-! ### Host actions -/

/-- Every command completes, and leaves the invariant (R243). -/
theorem Inv.exec {s : State} (h : Inv s) {i : Instr} (hwf : i.wellFormed Config.limits = true) :
    ∃ t, Machine.exec i s = .next t ∧ Inv t := by
  obtain ⟨ps, hps, hp⟩ := beginCommand_onPath i s
  have hn : ps.length ≤ maxMoves := by
    have := length_pathTaken_le i
    rw [hps, List.length_cons] at this
    exact (Nat.le_of_succ_le_succ this).trans (by decide)
  rw [exec_eq_execWith]
  exact (h.beginCommand hwf).runToDone hwf hp hn

theorem Inv.issue {s : State} (h : Inv s) (desc : Bytes) : ∃ t, Machine.issue desc s = .next t ∧ Inv t := by
  cases hd : decode desc with
  | error e => exact ⟨_, issue_of_error hd s, inv_rejectDescriptor s⟩
  | ok i => rw [issue_of_ok hd]; exact h.exec (decodeWith_ok hd).2

theorem Inv.present {s : State} (h : Inv s) (desc : Bytes) : Inv (Machine.present desc s) := by
  cases hd : decode desc with
  | error e => rw [present_of_error hd]; exact inv_rejectDescriptor s
  | ok i => rw [present_of_ok hd]; exact h.beginCommand (decodeWith_ok hd).2

theorem Inv.idle {s : State} (h : Inv s) : ∃ t, Machine.idle s = .next t ∧ Inv t := by
  by_cases hb : s.busy = true
  · obtain ⟨i, q, ps, hwf, hs⟩ := h.onPath hb
    obtain ⟨t, hm, -, ht⟩ := h.move hwf hs
    exact ⟨t, hs.idle hm, ht⟩
  · exact ⟨s, if_neg hb, h⟩

theorem Inv.hostAct {s : State} (h : Inv s) (a : HostAct) : ∃ t, Machine.hostAct a s = .next t ∧ Inv t := by
  cases a with
  | start desc =>
    by_cases hb : s.busy = true
    · exact ⟨s, if_pos hb, h⟩
    · obtain ⟨t, ht, hi⟩ := h.issue desc
      exact ⟨t, (if_neg hb).trans ht, hi⟩
  | present desc =>
    by_cases hb : s.busy = true
    · exact ⟨s, if_pos hb, h⟩
    · exact ⟨_, if_neg hb, h.present desc⟩
  | wait => exact h.idle
  | reset => exact ⟨_, rfl, inv_reset.withHost _⟩

/-- From a state that meets the invariant a step answers a state that meets it. -/
theorem Inv.step {s : State} (h : Inv s) : ∃ t, Machine.step s = .next t ∧ Inv t := by
  rcases portStep_cases s with ⟨-, hs⟩ | ⟨a, rest, -, hs⟩ <;> rw [Machine.step, hs]
  · exact h.idle
  · exact (h.withHost rest).hostAct a

/-- What a host reads of START-cleared results (R24, R31). -/
theorem Inv.hostView_of_busy {s : State} (h : Inv s) (hb : s.busy = true) :
    s.hostView = { busy := true, done := false, status := 0, eq := false, dlen := 0, dout := [] } ∧
      ∀ j, s.doutByte j = 0 := by
  have hd : s.done = false := by
    rw [← Bool.not_eq_true, State.done_iff]
    intro hd
    simp [State.busy, hd] at hb
  simp [State.hostView, State.doutByte, h.cleared hb, hb, hd, Results.zero, Status.code]

end Sys2Proof.Machine
end

section
/-! The settled statements about reset and the invariant. -/

namespace Sys2Proof.Machine

/-- Settles O1, by evaluating the reset state. -/
theorem resetStateIsAllZero : Obligations.ResetStateIsAllZero :=
  ⟨rfl, rfl, rfl, rfl, rfl, rfl, fun _ => rfl, rfl, rfl⟩

/-- Settles O51: the reset state is scrubbed, idle, and its results agree. -/
theorem resetMeetsTheInvariant : Obligations.ResetMeetsTheInvariant := inv_reset

/-- Settles O52: the state a step answers is the one `Inv.step` gives. -/
theorem stepKeepsTheInvariant : Obligations.StepKeepsTheInvariant := by
  intro s t h ht
  obtain ⟨t', ht', hi⟩ := h.step
  obtain rfl : t' = t := by rw [ht] at ht'; exact (Host.Outcome.next.inj ht').symm
  exact hi

/-- Settles O57: the step keeps the invariant (O52), whose clause about a BUSY core fixes what the host reads. -/
theorem busyCoreShowsClearedResults : Obligations.BusyCoreShowsClearedResults :=
  fun s t h ht hb => (stepKeepsTheInvariant s t h ht).hostView_of_busy hb

end Sys2Proof.Machine
end

section
/-! SUPPORT. The result of every command in closed form, tied to `exec` by `exec_eq_result`: what the commit at the end
of its path writes, and the oracle calls made on the way, as functions of the command alone. -/

namespace Sys2Proof.Machine

/-- What a command leaves: the arguments of its commit (R30) and its oracle calls. -/
structure CommandResult where
  status : Status
  eq : Bool
  out : Bytes
  calls : List OracleCall

/-- A command refused by a length check: no call, nothing in DOUT (R231 to R233, R236). -/
def refusedWith (e : Status) : CommandResult := ⟨e, false, [], []⟩

/-- The end of a DEC command that recovered `pt`, computed the tag `expected` and received `tag` (R167, R204). -/
def verified (expected tag : Block) (pt : Bytes) (calls : List OracleCall) : CommandResult :=
  if cteq expected tag then ⟨.ok, true, pt, calls⟩ else ⟨.authenticationFailed, false, [], calls⟩

/-- The call of a GSIV tag over `pt` after the derivation (R198). -/
def gsivTagCall (o : Oracles) (key nonce ad pt : Bytes) : OracleCall :=
  .bco (gsivEncKey o key nonce) (gsivTagInput (gsivAuthKey o key nonce) nonce ad pt)

/-- The GSIV tag of a plaintext under the subkeys of a master key (R181, R198). -/
def gsivTagOf (o : Oracles) (key nonce ad pt : Bytes) : Block :=
  gsivTag o (gsivAuthKey o key nonce) (gsivEncKey o key nonce) nonce ad pt

/-- The result of a command over the collaborators `o`. -/
def resultOf (o : Oracles) : Instr → CommandResult
  | .dbl x => ⟨.ok, false, (dbl x).bytes, []⟩
  | .pmul a b => ⟨.ok, false, (pmul a b).bytes, []⟩
  | .cteq a b => ⟨.ok, cteq a b, [], []⟩
  | .clr => ⟨.ok, false, [], []⟩
  | .cmacInit key =>
    if bcoKeyLen key.length then
      ⟨.ok, false, (cmacInit o key).k1.bytes ++ (cmacInit o key).k2.bytes, cmacInitCalls key⟩
    else refusedWith .invalidKeySize
  | .cmacSum key msg =>
    if bcoKeyLen key.length then
      ⟨.ok, false, (cmacSum o (cmacInit o key) msg).bytes, cmacInitCalls key ++ cmacSumCalls o (cmacInit o key) msg⟩
    else refusedWith .invalidKeySize
  | .cmacSumm key msg mask =>
    if bcoKeyLen key.length then
      ⟨.ok, false, (cmacSumm o (cmacInit o key) msg mask).bytes,
        cmacInitCalls key ++ cmacSumCalls o (cmacInit o key) (maskLast msg mask)⟩
    else refusedWith .invalidKeySize
  | .s2v key comps fin =>
    if bcoKeyLen key.length then ⟨.ok, false, (s2v o key comps fin).bytes, s2vCalls o key comps fin⟩
    else refusedWith .invalidKeySize
  | .sivEnc key nonce ad msg =>
    if sivKeyLen key.length then
      ⟨.ok, false, sivCrypt o key (sivTag o key nonce ad msg) msg ++ (sivTag o key nonce ad msg).bytes,
        s2vCalls o (sivMacKey key) (sivComps nonce ad) msg ++
          [.ctrks (sivEncKey key) (sivSeed (sivTag o key nonce ad msg)) msg.length .be128]⟩
    else refusedWith .invalidKeySize
  | .sivDec key nonce ad msg =>
    if sivKeyLen key.length then
      if shortInput msg.length then refusedWith .shortInput
      else
        let pt := sivCrypt o key (tagOf msg) (ctOf msg)
        verified (sivTag o key nonce ad pt) (tagOf msg) pt
          (.ctrks (sivEncKey key) (sivSeed (tagOf msg)) (ctOf msg).length .be128 ::
            s2vCalls o (sivMacKey key) (sivComps nonce ad) pt)
    else refusedWith .invalidKeySize
  | .gsivDerive key nonce =>
    if gsivKeyLen key.length then
      if gsivNonceLen nonce.length then
        ⟨.ok, false, (gsivAuthKey o key nonce).bytes ++ gsivEncKey o key nonce, gsivDeriveCalls key nonce⟩
      else refusedWith .invalidNonceSize
    else refusedWith .invalidKeySize
  | .pvHash h data => ⟨.ok, false, (pvHash h data).bytes, []⟩
  | .pvDigest authKey ad pt => ⟨.ok, false, (pvDigest authKey ad pt).bytes, []⟩
  | .gsivTag key nonce ad msg =>
    if gsivKeyLen key.length then
      if gsivNonceLen nonce.length then
        ⟨.ok, false, (gsivTagOf o key nonce ad msg).bytes,
          gsivDeriveCalls key nonce ++ [gsivTagCall o key nonce ad msg]⟩
      else refusedWith .invalidNonceSize
    else refusedWith .invalidKeySize
  | .gsivEnc key nonce ad msg =>
    if gsivKeyLen key.length then
      if gsivNonceLen nonce.length then
        let tag := gsivTagOf o key nonce ad msg
        ⟨.ok, false, gsivCrypt o (gsivEncKey o key nonce) tag msg ++ tag.bytes,
          gsivDeriveCalls key nonce ++ [gsivTagCall o key nonce ad msg,
            .ctrks (gsivEncKey o key nonce) (gsivSeed tag) msg.length .le32]⟩
      else refusedWith .invalidNonceSize
    else refusedWith .invalidKeySize
  | .gsivDec key nonce ad msg =>
    if gsivKeyLen key.length then
      if gsivNonceLen nonce.length then
        if shortInput msg.length then refusedWith .shortInput
        else
          let pt := gsivCrypt o (gsivEncKey o key nonce) (tagOf msg) (ctOf msg)
          verified (gsivTagOf o key nonce ad pt) (tagOf msg) pt
            (gsivDeriveCalls key nonce ++
              [.ctrks (gsivEncKey o key nonce) (gsivSeed (tagOf msg)) (ctOf msg).length .le32,
                gsivTagCall o key nonce ad pt])
      else refusedWith .invalidNonceSize
    else refusedWith .invalidKeySize

/-- The state a result leaves. -/
def CommandResult.leaves (r : CommandResult) (s : State) : State := finished r.status r.eq r.out r.calls s

/-- The comparison at VerifyTag ends the command with the result `verified` (R167, R204). -/
theorem decVerify_eq (s : State) :
    decVerify s = (verified s.working.expected s.working.tag s.working.ptbuf s.calls).leaves s := by
  unfold decVerify verified
  split <;> rfl

/-! ### The runs along the paths -/

section
variable (o : Oracles) (s : State)

/-- In phase InvalidKey every command that has it raises InvalidKeySize (R231). -/
theorem moveOf_of_invalidKey {i : Instr} (hi : .invalidKey ∈ pathTaken i) {u : State} (hu : u.phase = .invalidKey) :
    moveOf o i.opcode u = some (raise .invalidKeySize u) := by
  cases i
  case dbl | pmul | cteq | clr | pvHash | pvDigest => simp [pathTaken] at hi
  all_goals simp only [Instr.opcode, moveOf, moveCmacInit, moveCmacSum, moveCmacSumm, moveS2v, moveSivEnc, moveSivDec,
    moveGsivDerive, moveGsivTag, moveGsivEnc, moveGsivDec, hu]

/-- The commands with a GCM-SIV nonce (R180). -/
def gsivOpcodes : List Opcode := [.gsivDerive, .gsivTag, .gsivEnc, .gsivDec]

/-- The GSIV commands check the nonce in phase KeyValidated (R180). -/
theorem moveOf_gsiv_of_keyValidated {op : Opcode} (hop : op ∈ gsivOpcodes) {u : State} (hu : u.phase = .keyValidated) :
    moveOf o op u = some (gsivNonce u) := by
  simp only [gsivOpcodes, List.mem_cons, List.not_mem_nil, or_false] at hop
  rcases hop with rfl | rfl | rfl | rfl <;>
    simp only [moveOf, moveGsivDerive, moveGsivTag, moveGsivEnc, moveGsivDec, hu]

/-- In phase InvalidNonce the GSIV commands raise InvalidNonceSize (R232). -/
theorem moveOf_gsiv_of_invalidNonce {op : Opcode} (hop : op ∈ gsivOpcodes) {u : State} (hu : u.phase = .invalidNonce) :
    moveOf o op u = some (raise .invalidNonceSize u) := by
  simp only [gsivOpcodes, List.mem_cons, List.not_mem_nil, or_false] at hop
  rcases hop with rfl | rfl | rfl | rfl <;>
    simp only [moveOf, moveGsivDerive, moveGsivTag, moveGsivEnc, moveGsivDec, hu]

/-- A key of illegal length ends the command by way of InvalidKey (R231). -/
theorem execWith_of_invalidKey {i : Instr} (hb : beginCommand i s = toPhase .invalidKey (accept i s)) :
    execWith o i s = .next ((refusedWith .invalidKeySize).leaves s) := by
  have hi : .invalidKey ∈ pathTaken i := by
    obtain ⟨ps, hps⟩ := pathTaken_eq_beginCommand_phase_cons i s
    simp [hps, hb]
  rw [execWith, hb, maxMoves, runToDone_move _ _ (by simp) (moveOf_of_invalidKey o hi rfl),
    runToDone_of_done _ _ (by simp)]
  rfl

/-- A CMAC command or S2V is its run from KeyValidated, unless the key is refused (R139). -/
theorem execWith_eq_of_bcoKeyStart {i : Instr} {r : CommandResult} (hb : beginCommand i s = bcoKeyStart (accept i s))
    (hr : resultOf o i = if bcoKeyLen (operandsOf i).klen then r else refusedWith .invalidKeySize)
    (hv : runToDone (moveOf o i.opcode) maxMoves (toPhase .keyValidated (accept i s)) = .next (r.leaves s)) :
    execWith o i s = .next ((resultOf o i).leaves s) := by
  rw [hr]
  by_cases hk : bcoKeyLen (operandsOf i).klen = true
  · rw [if_pos hk, execWith, hb, bcoKeyStart, accept_operands, if_pos hk, hv]
  · rw [if_neg hk, execWith_of_invalidKey o s (hb.trans (if_neg hk))]

/-- The state after the key check of an SIV command: both key halves in their registers (R160). -/
def sivKeyed (i : Instr) (s : State) : State :=
  { toPhase .keyValidated (accept i s) with
    working := { s.working with mackey := sivMacKey (operandsOf i).key, enckey := sivEncKey (operandsOf i).key } }

/-- An SIV command is its run from KeyValidated, unless the key is refused (R160). -/
theorem execWith_eq_of_sivStart {i : Instr} {r : CommandResult} (hb : beginCommand i s = sivStart (accept i s))
    (hr : resultOf o i = if sivKeyLen (operandsOf i).klen then r else refusedWith .invalidKeySize)
    (hv : runToDone (moveOf o i.opcode) maxMoves (sivKeyed i s) = .next (r.leaves s)) :
    execWith o i s = .next ((resultOf o i).leaves s) := by
  rw [hr]
  by_cases hk : sivKeyLen (operandsOf i).klen = true
  · have hs : sivStart (accept i s) = sivKeyed i s := if_pos hk
    rw [if_pos hk, execWith, hb, hs, hv]
  · rw [if_neg hk, execWith_of_invalidKey o s (hb.trans (if_neg hk))]

/-- A GSIV command is its run from NonceValidated, unless the key or the nonce is refused (R180). -/
theorem execWith_eq_of_gsivKeyStart {i : Instr} {r : CommandResult} (hop : i.opcode ∈ gsivOpcodes)
    (hb : beginCommand i s = gsivKeyStart (accept i s))
    (hr : resultOf o i = if gsivKeyLen (operandsOf i).klen then
        if gsivNonceLen (operandsOf i).nlen then r else refusedWith .invalidNonceSize
      else refusedWith .invalidKeySize)
    (hv : runToDone (moveOf o i.opcode) 5 (toPhase .nonceValidated (accept i s)) = .next (r.leaves s)) :
    execWith o i s = .next ((resultOf o i).leaves s) := by
  rw [hr]
  by_cases hk : gsivKeyLen (operandsOf i).klen = true
  · let t := toPhase .keyValidated (accept i s)
    have hs : gsivKeyStart (accept i s) = t := if_pos hk
    rw [if_pos hk, execWith, hb, hs, maxMoves, runToDone_move _ _ (by simp [t]) (moveOf_gsiv_of_keyValidated o hop rfl)]
    by_cases hn : gsivNonceLen (operandsOf i).nlen = true
    · have hg : gsivNonce t = toPhase .nonceValidated (accept i s) := if_pos hn
      rw [if_pos hn, hg, hv]
    · have hg : gsivNonce t = toPhase .invalidNonce (accept i s) := if_neg hn
      rw [if_neg hn, hg, runToDone_move _ _ (by simp) (moveOf_gsiv_of_invalidNonce o hop rfl),
        runToDone_of_done _ _ (by simp)]
      rfl
  · rw [if_neg hk, execWith_of_invalidKey o s (hb.trans (if_neg hk))]

/-- SIV.DEC with a legal key: the short-input check, then both outcomes of VerifyTag (R166, R167). -/
theorem runToDone_sivDec (key nonce ad msg : Bytes) :
    let pt := sivCrypt o key (tagOf msg) (ctOf msg)
    runToDone (moveSivDec o) maxMoves (sivKeyed (.sivDec key nonce ad msg) s) = .next (CommandResult.leaves
      (if shortInput msg.length then refusedWith .shortInput
      else verified (sivTag o key nonce ad pt) (tagOf msg) pt
        (.ctrks (sivEncKey key) (sivSeed (tagOf msg)) (ctOf msg).length .be128 ::
          s2vCalls o (sivMacKey key) (sivComps nonce ad) pt)) s) := by
  intro pt
  let t := sivNonce (sivKeyed (.sivDec key nonce ad msg) s)
  show runToDone _ 4 (if shortInput msg.length then raise .shortInput t else decSplit t) = _
  by_cases hm : shortInput msg.length = true
  · rw [if_pos hm, if_pos hm]; rfl
  · rw [if_neg hm, if_neg hm]
    show runToDone _ 1 (decVerify (sivDecExpect o (sivKeystream o (ctOf msg) (decSplit t)))) = _
    rw [runToDone_of_done _ _ (decVerify_phase _), decVerify_eq]
    rfl

/-- GSIV.DEC with a legal key and nonce: the short-input check, then both outcomes of VerifyTag (R203, R204). -/
theorem runToDone_gsivDec (key nonce ad msg : Bytes) :
    let pt := gsivCrypt o (gsivEncKey o key nonce) (tagOf msg) (ctOf msg)
    runToDone (moveGsivDec o) 5 (toPhase .nonceValidated (accept (.gsivDec key nonce ad msg) s)) =
      .next (CommandResult.leaves
        (if shortInput msg.length then refusedWith .shortInput
        else verified (gsivTagOf o key nonce ad pt) (tagOf msg) pt
          (gsivDeriveCalls key nonce ++ [.ctrks (gsivEncKey o key nonce) (gsivSeed (tagOf msg)) (ctOf msg).length .le32,
            gsivTagCall o key nonce ad pt])) s) := by
  intro pt
  let t := toPhase .nonceValidated (accept (.gsivDec key nonce ad msg) s)
  show runToDone _ 4 (if shortInput msg.length then raise .shortInput t else gsivDeriveKeys o (decSplit t)) = _
  by_cases hm : shortInput msg.length = true
  · rw [if_pos hm, if_pos hm]; rfl
  · rw [if_neg hm, if_neg hm]
    show runToDone _ 1 (decVerify (gsivDecExpect o (gsivKeystream o (ctOf msg) (gsivDeriveKeys o (decSplit t))))) = _
    rw [runToDone_of_done _ _ (decVerify_phase _), decVerify_eq]
    exact congrArg (fun cs => Host.Outcome.next ((verified _ _ _ cs).leaves s)) (List.append_assoc _ [_] [_])

/-- GSIV.ENC with a legal key and nonce (R201). -/
theorem runToDone_gsivEnc (key nonce ad msg : Bytes) :
    let tag := gsivTagOf o key nonce ad msg
    runToDone (moveGsivEnc o) 5 (toPhase .nonceValidated (accept (.gsivEnc key nonce ad msg) s)) =
      .next (finished .ok false (gsivCrypt o (gsivEncKey o key nonce) tag msg ++ tag.bytes)
        (gsivDeriveCalls key nonce ++ [gsivTagCall o key nonce ad msg,
          .ctrks (gsivEncKey o key nonce) (gsivSeed tag) msg.length .le32]) s) :=
  congrArg (fun cs => Host.Outcome.next (finished _ _ _ cs s)) (List.append_assoc _ [_] [_])

/-- Every command completes with its result, over any collaborators and from every state. -/
theorem execWith_eq_result (i : Instr) : execWith o i s = .next ((resultOf o i).leaves s) := by
  cases i with
  | dbl x => rfl
  | pmul a b => rfl
  | cteq a b => rfl
  | clr => rfl
  | pvHash h data => rfl
  | pvDigest authKey ad pt => rfl
  | cmacInit key => exact execWith_eq_of_bcoKeyStart o s rfl rfl rfl
  | cmacSum key msg => exact execWith_eq_of_bcoKeyStart o s rfl rfl rfl
  | cmacSumm key msg mask => exact execWith_eq_of_bcoKeyStart o s rfl rfl rfl
  | s2v key comps fin => exact execWith_eq_of_bcoKeyStart o s rfl rfl rfl
  | sivEnc key nonce ad msg => exact execWith_eq_of_sivStart o s rfl rfl rfl
  | sivDec key nonce ad msg => exact execWith_eq_of_sivStart o s rfl rfl (runToDone_sivDec o s key nonce ad msg)
  | gsivDerive key nonce =>
    exact execWith_eq_of_gsivKeyStart o s (by simp [Instr.opcode, gsivOpcodes]) rfl rfl rfl
  | gsivTag key nonce ad msg =>
    exact execWith_eq_of_gsivKeyStart o s (by simp [Instr.opcode, gsivOpcodes]) rfl rfl rfl
  | gsivEnc key nonce ad msg =>
    exact execWith_eq_of_gsivKeyStart o s (by simp [Instr.opcode, gsivOpcodes]) rfl rfl
      (runToDone_gsivEnc o s key nonce ad msg)
  | gsivDec key nonce ad msg =>
    exact execWith_eq_of_gsivKeyStart o s (by simp [Instr.opcode, gsivOpcodes]) rfl rfl
      (runToDone_gsivDec o s key nonce ad msg)

end

/-- Every command completes with its result, from every state. -/
theorem exec_eq_result (i : Instr) (s : State) : exec i s = .next ((resultOf Config.oracles i).leaves s) := by
  rw [exec_eq_execWith, execWith_eq_result]

end Sys2Proof.Machine
end

section
/-! The settled statement about results. -/

namespace Sys2Proof.Machine

/-- Settles O47: the state is the one the command's result leaves on the reset state; it has nothing of the state before
but the host's queue. -/
theorem resultDependsOnTheCommandOnly : Obligations.ResultDependsOnTheCommandOnly :=
  fun i => ⟨(resultOf Config.oracles i).leaves State.reset, rfl, rfl, rfl, fun s => exec_eq_result i s⟩

end Sys2Proof.Machine
end

section
/-! SUPPORT. Padding, the big-endian reading of a Block bit by bit, and byte strings made of whole Blocks (20_memory.md
R52, R57 to R59). -/

namespace Sys2Proof

/-- The bytes of a Block in index order. -/
theorem Block.bytes_eq_map_get (b : Block) : b.bytes = (List.range 16).map b.get :=
  congrArg Block.bytes b.ofFn_get.symm

namespace Machine

/-- At most 15 bytes, the marker and the zero bytes are sixteen bytes, so `pad80` cuts none off (R58). -/
theorem bytes_pad80 {t : Bytes} (h : t.length ≤ 15) : (pad80 t).bytes = t ++ 0x80 :: zeros (15 - t.length) :=
  Block.bytes_ofBytes (by simp only [List.length_append, List.length_cons, length_zeros]; omega)

/-- Padded strings are whole Blocks (R59). -/
theorem length_zpad16_mod (t : Bytes) : (zpad16 t).length % 16 = 0 := by
  simp only [zpad16, List.length_append, length_zeros]; omega

/-- A bit of an OR over a list is set when it is set in one of the terms. -/
theorem getLsbD_foldl_or {w : Nat} (f : Nat → BitVec w) (k : Nat) : ∀ (l : List Nat) (acc : BitVec w),
    (l.foldl (fun acc i => acc ||| f i) acc).getLsbD k = (acc.getLsbD k || l.any fun i => (f i).getLsbD k)
  | [], acc => by simp
  | i :: l, acc => by simp [getLsbD_foldl_or f k l, Bool.or_assoc]

/-- Bit `k` of the big-endian integer is bit `k mod 8` of the byte `k div 8` places before the last (R52). -/
theorem getLsbD_be128 (b : Block) {k : Nat} (hk : k < 128) :
    (be128 b).getLsbD k = (b.get (15 - k / 8)).getLsbD (k % 8) := by
  rw [be128, getLsbD_foldl_or, Bool.eq_iff_iff]
  simp only [BitVec.getLsbD_shiftLeft, BitVec.getLsbD_setWidth, List.any_eq_true, List.mem_range, Bool.or_eq_true,
    Bool.and_eq_true, Bool.not_eq_true', decide_eq_true_eq, decide_eq_false_iff_not]
  constructor
  · rintro (h | ⟨i, hi, ⟨⟨_, hle⟩, _, hbit⟩⟩)
    · simp at h
    · have hlt : k - 8 * (15 - i) < 8 := BitVec.lt_of_getLsbD hbit
      rwa [show 15 - k / 8 = i by omega, show k % 8 = k - 8 * (15 - i) by omega]
  · intro h
    refine .inr ⟨15 - k / 8, by omega, ⟨hk, by omega⟩, by omega, ?_⟩
    rwa [show k - 8 * (15 - (15 - k / 8)) = k % 8 by omega]

/-- `be128` reads back what `from_be128` writes (R10). -/
theorem be128_ofBe128 (v : BitVec 128) : be128 (ofBe128 v) = v := by
  apply BitVec.eq_of_getLsbD_eq
  intro k hk
  have hbyte : 15 - k / 8 < 16 := by omega
  have hbit : 8 * (15 - (15 - k / 8)) + k % 8 = k := by omega
  simp [getLsbD_be128 _ hk, ofBe128, Block.get_ofFn _ hbyte, hbit, Nat.mod_lt]

/-- Reading byte `i mod 16` of Block `i div 16`, for all bytes of `m` Blocks, gives the Blocks one after the other. -/
theorem map_get_eq_flatMap_bytes (f : Nat → Block) : ∀ m : Nat,
    (List.range (16 * m)).map (fun i => (f (i / 16)).get (i % 16)) = (List.range m).flatMap fun j => (f j).bytes
  | 0 => rfl
  | m + 1 => by
    have hlast : (List.range 16).map (fun i => (f ((16 * m + i) / 16)).get ((16 * m + i) % 16)) = (f m).bytes := by
      rw [Block.bytes_eq_map_get]
      refine List.map_congr_left fun i hi => ?_
      have hi := List.mem_range.1 hi
      rw [show (16 * m + i) / 16 = m by omega, show (16 * m + i) % 16 = i by omega]
    rw [Nat.mul_succ, List.range_add, List.map_append, map_get_eq_flatMap_bytes f m, List.map_map,
      List.range_succ (n := m), List.flatMap_append, List.flatMap_singleton]
    exact congrArg _ hlast

/-- The first `n` bytes of as many whole Blocks as `n` bytes need. -/
theorem map_get_eq_take_flatMap_bytes (f : Nat → Block) (n : Nat) :
    (List.range n).map (fun i => (f (i / 16)).get (i % 16)) =
      ((List.range ((n + 15) / 16)).flatMap fun j => (f j).bytes).take n := by
  rw [← map_get_eq_flatMap_bytes, ← List.map_take, List.take_range, Nat.min_eq_left (by omega)]

/-- The LE32 increment rewrites the first four bytes only (R65). -/
theorem bytes_nextLe32 (c : Block) :
    (nextLe32 c).bytes = u32le ((le32 (c.bytes.take 4) + 1) % 2 ^ 32) ++ c.bytes.drop 4 :=
  Block.bytes_ofBytes (by simp)

end Machine

end Sys2Proof
end

section
/-! SUPPORT. The keys of the oracle calls (20_memory.md R62, R64): the length checks let only keys of 16, 24 or 32 bytes
through, and every key made from a checked one has such a length. -/

namespace Sys2Proof.Machine

/-- Every call presents a key of a length the cipher has (R62). -/
def LegalKeys (cs : List OracleCall) : Prop := ∀ c ∈ cs, bcoKeyLen c.key.length = true

/-! ### Lists of calls -/

theorem legalKeys_nil : LegalKeys [] := List.forall_mem_nil _

theorem LegalKeys.cons {c : OracleCall} {cs : List OracleCall} (hc : bcoKeyLen c.key.length = true)
    (hcs : LegalKeys cs) : LegalKeys (c :: cs) := List.forall_mem_cons.2 ⟨hc, hcs⟩

theorem LegalKeys.append {cs ds : List OracleCall} (hc : LegalKeys cs) (hd : LegalKeys ds) : LegalKeys (cs ++ ds) :=
  List.forall_mem_append.2 ⟨hc, hd⟩

theorem legalKeys_singleton {c : OracleCall} (hc : bcoKeyLen c.key.length = true) : LegalKeys [c] :=
  legalKeys_nil.cons hc

theorem legalKeys_pair {c d : OracleCall} (hc : bcoKeyLen c.key.length = true) (hd : bcoKeyLen d.key.length = true) :
    LegalKeys [c, d] := (legalKeys_singleton hd).cons hc

/-- A command with a length check makes the calls of the accepted case at most. -/
theorem legalKeys_checked {p : Prop} [Decidable p] {r : CommandResult} {e : Status} (h : p → LegalKeys r.calls) :
    LegalKeys (if p then r else refusedWith e).calls := by
  split
  · exact h ‹p›
  · exact legalKeys_nil

/-- The same for the short-input check, which refuses where it holds. -/
theorem legalKeys_unless {p : Prop} [Decidable p] {r : CommandResult} {e : Status} (h : LegalKeys r.calls) :
    LegalKeys (if p then refusedWith e else r).calls := by
  split
  · exact legalKeys_nil
  · exact h

/-- The comparison of the tags changes no call. -/
@[simp] theorem verified_calls (expected tag : Block) (pt : Bytes) (cs : List OracleCall) :
    (verified expected tag pt cs).calls = cs := by unfold verified; split <;> rfl

/-! ### The calls of the units: each presents the unit's key -/

section
variable {o : Oracles} {key : Bytes}

theorem legalKeys_chainCalls (hk : bcoKeyLen key.length = true) : ∀ (bs : List Block) (x : Block),
    LegalKeys (chainCalls o key x bs)
  | [], _ => legalKeys_nil
  | _ :: bs, _ => (legalKeys_chainCalls hk bs _).cons hk

theorem legalKeys_cmacInitCalls (hk : bcoKeyLen key.length = true) : LegalKeys (cmacInitCalls key) :=
  legalKeys_singleton hk

theorem legalKeys_cmacSumCalls (hk : bcoKeyLen key.length = true) (msg : Bytes) :
    LegalKeys (cmacSumCalls o (cmacInit o key) msg) := legalKeys_chainCalls hk _ _

theorem legalKeys_s2vCalls (hk : bcoKeyLen key.length = true) (comps : List Bytes) (fin : Bytes) :
    LegalKeys (s2vCalls o key comps fin) := by
  have hcomps : LegalKeys (comps.flatMap (cmacSumCalls o (cmacInit o key))) :=
    List.forall_mem_flatMap.2 fun t _ => legalKeys_cmacSumCalls hk t
  exact (((legalKeys_cmacInitCalls hk).append (legalKeys_cmacSumCalls hk _)).append hcomps).append
    (legalKeys_cmacSumCalls hk _)

theorem legalKeys_gsivDeriveCalls (hk : bcoKeyLen key.length = true) (nonce : Bytes) :
    LegalKeys (gsivDeriveCalls key nonce) := List.forall_mem_map.2 fun _ _ => hk

/-! ### The keys made from a checked key -/

/-- `bcoKeyLen` in numbers (R62, R139). -/
theorem bcoKeyLen_iff (n : Nat) : bcoKeyLen n = true ↔ n = 16 ∨ n = 24 ∨ n = 32 := by
  simp only [bcoKeyLen, Bool.or_eq_true, beq_iff_eq, or_assoc]

theorem sivKeyLen_iff (n : Nat) : sivKeyLen n = true ↔ n = 32 ∨ n = 64 := by
  simp only [sivKeyLen, Bool.or_eq_true, beq_iff_eq]

theorem gsivKeyLen_iff (n : Nat) : gsivKeyLen n = true ↔ n = 16 ∨ n = 32 := by
  simp only [gsivKeyLen, Bool.or_eq_true, beq_iff_eq]

theorem bcoKeyLen_sivMacKey (h : sivKeyLen key.length = true) : bcoKeyLen (sivMacKey key).length = true := by
  have hl : (sivMacKey key).length = key.length / 2 := by simp [sivMacKey, memRead, Nat.div_le_self]
  rw [sivKeyLen_iff] at h
  rw [bcoKeyLen_iff, hl]; omega

theorem bcoKeyLen_sivEncKey (h : sivKeyLen key.length = true) : bcoKeyLen (sivEncKey key).length = true := by
  rw [sivKeyLen_iff] at h
  rw [bcoKeyLen_iff, length_sivEncKey]; omega

theorem bcoKeyLen_of_gsivKeyLen {n : Nat} (h : gsivKeyLen n = true) : bcoKeyLen n = true := by
  rw [gsivKeyLen_iff] at h
  rw [bcoKeyLen_iff]; omega

/-- ENCKEY is as long as the master key (R181). -/
theorem bcoKeyLen_gsivEncKey (h : gsivKeyLen key.length = true) (nonce : Bytes) :
    bcoKeyLen (gsivEncKey o key nonce).length = true := by
  rw [gsivKeyLen_iff] at h
  rw [bcoKeyLen_iff, length_gsivEncKey]; omega

end

/-! ### The commands -/

/-- The result of every command has made calls with keys of the cipher's lengths only. -/
theorem legalKeys_resultOf (o : Oracles) (i : Instr) : LegalKeys (resultOf o i).calls := by
  cases i with
  | dbl | pmul | cteq | clr | pvHash | pvDigest => exact legalKeys_nil
  | cmacInit key => exact legalKeys_checked fun hk => legalKeys_cmacInitCalls hk
  | cmacSum key msg =>
    exact legalKeys_checked fun hk => (legalKeys_cmacInitCalls hk).append (legalKeys_cmacSumCalls hk _)
  | cmacSumm key msg mask =>
    exact legalKeys_checked fun hk => (legalKeys_cmacInitCalls hk).append (legalKeys_cmacSumCalls hk _)
  | s2v key comps fin => exact legalKeys_checked fun hk => legalKeys_s2vCalls hk comps fin
  | sivEnc key nonce ad msg =>
    exact legalKeys_checked fun hk => (legalKeys_s2vCalls (bcoKeyLen_sivMacKey hk) _ _).append
      (legalKeys_singleton (bcoKeyLen_sivEncKey hk))
  | sivDec key nonce ad msg =>
    refine legalKeys_checked fun hk => legalKeys_unless ?_
    rw [verified_calls]
    exact (legalKeys_s2vCalls (bcoKeyLen_sivMacKey hk) _ _).cons (bcoKeyLen_sivEncKey hk)
  | gsivDerive key nonce =>
    exact legalKeys_checked fun hk => legalKeys_checked fun _ =>
      legalKeys_gsivDeriveCalls (bcoKeyLen_of_gsivKeyLen hk) nonce
  | gsivTag key nonce ad msg =>
    exact legalKeys_checked fun hk => legalKeys_checked fun _ =>
      (legalKeys_gsivDeriveCalls (bcoKeyLen_of_gsivKeyLen hk) nonce).append
        (legalKeys_singleton (bcoKeyLen_gsivEncKey hk nonce))
  | gsivEnc key nonce ad msg =>
    exact legalKeys_checked fun hk => legalKeys_checked fun _ =>
      (legalKeys_gsivDeriveCalls (bcoKeyLen_of_gsivKeyLen hk) nonce).append
        (legalKeys_pair (bcoKeyLen_gsivEncKey hk nonce) (bcoKeyLen_gsivEncKey hk nonce))
  | gsivDec key nonce ad msg =>
    refine legalKeys_checked fun hk => legalKeys_checked fun _ => legalKeys_unless ?_
    rw [verified_calls]
    exact (legalKeys_gsivDeriveCalls (bcoKeyLen_of_gsivKeyLen hk) nonce).append
      (legalKeys_pair (bcoKeyLen_gsivEncKey hk nonce) (bcoKeyLen_gsivEncKey hk nonce))

end Sys2Proof.Machine
end

section
/-! The settled statements about padding, the reference keystream and the oracle keys. -/

namespace Sys2Proof.Machine

/-- Settles O43: `pad80` fills exactly one Block, and `zpad16` adds `(16 - n mod 16) mod 16` zero bytes. -/
theorem paddingAppendsMarkerAndZeros : Obligations.PaddingAppendsMarkerAndZeros :=
  fun t => ⟨bytes_pad80, (16 - t.length % 16) % 16, Nat.mod_lt _ (by decide), rfl, length_zpad16_mod t⟩

/-- Settles O44: byte `i` of the keystream is byte `i mod 16` of the cipher output on counter block `i div 16`; the
BE128 increment goes through `be128` and back, the LE32 increment through the first four bytes. -/
theorem referenceKeystreamCounts : Obligations.ReferenceKeystreamCounts := by
  intro cipher key seed inc n
  have hcount : (le32 (seed.bytes.take 4) + 1) % 2 ^ 32 < 2 ^ 32 := Nat.mod_lt _ (by decide)
  refine ⟨map_get_eq_take_flatMap_bytes (fun j => cipher key (counterBlock inc seed j)) n, be128_ofBe128 _, ?_, ?_⟩
  · rw [nextCounter, bytes_nextLe32, List.take_left' (length_u32le _)]
    simpa using le32_u32le_append hcount []
  · rw [nextCounter, bytes_nextLe32, List.drop_left' (length_u32le _)]

/-- Settles O50: the calls a command leaves recorded are those of its result. -/
theorem oracleKeysHaveCipherLengths : Obligations.OracleKeysHaveCipherLengths := by
  intro i s t h c hc
  rw [exec_eq_result] at h
  obtain rfl := Host.Outcome.next.inj h
  exact (bcoKeyLen_iff _).1 (legalKeys_resultOf Config.oracles i c hc)

end Sys2Proof.Machine
end

section
/-! SUPPORT. What the decoder refuses: descriptors continued or cut short, first bytes that are no opcode, and length and
count fields above the limits (30_encoding.md R85, R88, R89). -/

namespace Sys2Proof

open Sys2Proof.Machine

/-! ### Continued and cut descriptors -/

/-- R88 (3): bytes after the last field are refused. -/
theorem decodeWith_encode_append {lim : Limits} {i : Instr} (h : i.wellFormed lim = true) (b : Byte) (t : Bytes) :
    decodeWith lim (encode i ++ b :: t) = .error .trailingBytes := by
  simp only [decodeWith, encode, List.cons_append, opcodeOf_byte, decodeFields_encodeFields i lim (b :: t) h]

/-- A descriptor cut short is refused: if it decoded, the whole one would continue a descriptor and have trailing bytes. -/
theorem decodeWith_take_encode {lim : Limits} {i : Instr} (h : i.wellFormed lim = true) {k : Nat}
    (hk : k < (encode i).length) : ∃ e, decodeWith lim ((encode i).take k) = .error e := by
  cases hd : decodeWith lim ((encode i).take k) with
  | error e => exact ⟨e, rfl⟩
  | ok j =>
    obtain ⟨hj, hwf⟩ := decodeWith_ok hd
    have hi : encode i = encode j ++ (encode i)[k] :: (encode i).drop (k + 1) := by
      rw [← hj, ← List.drop_eq_getElem_cons hk, List.take_append_drop]
    have htrailing := decodeWith_encode_append hwf (encode i)[k] ((encode i).drop (k + 1))
    rw [← hi, decodeWith_encode h] at htrailing
    cases htrailing

/-- A descriptor is read as the well-formed command whose encoding it is. -/
theorem decode_of_encode_eq {desc : Bytes} {i : Instr} (henc : encode i = desc)
    (hwf : i.wellFormed Config.limits = true) : decode desc = .ok i := henc ▸ decodeWith_encode hwf

/-! ### Unassigned opcodes -/

/-- The bytes of the sixteen opcodes, as R86 lists them. -/
theorem byte_mem_assigned (op : Opcode) : op.byte ∈ ([0x01, 0x02, 0x03, 0x0F, 0x10, 0x11, 0x12, 0x20, 0x30, 0x31, 0x40,
    0x41, 0x42, 0x43, 0x44, 0x45] : Bytes) := by
  cases op <;> decide

theorem decodeWith_unassigned (lim : Limits) {b : Byte} (t : Bytes) (h : ∀ op : Opcode, op.byte ≠ b) :
    decodeWith lim (b :: t) = .error .unassignedOpcode := by
  have hb : opcodeOf b = none := Option.eq_none_iff_forall_ne_some.2 fun op hop => h op (opcodeOf_some hop)
  simp only [decodeWith, hb]

/-! ### A field that is refused -/

/-- Sequencing of two readers stops at the first that refuses. -/
theorem bind_error {α β : Type} (e : Illegal) (f : α → Except Illegal β) : (Except.error e >>= f) = .error e := rfl

theorem decodeWith_of_decodeFields_error {lim : Limits} {op : Opcode} {t : Bytes} {e : Illegal}
    (h : decodeFields lim op t = .error e) : decodeWith lim (op.byte :: t) = .error e := by
  simp only [decodeWith, opcodeOf_byte, h]

/-- A string within MAX_LEN reads back (R81). -/
theorem readStr_encodeStr_of_le {lim : Limits} {x : Bytes} (h : x.length ≤ lim.maxLen) (r : Bytes) :
    readStr lim (encodeStr x ++ r) = .ok (x, r) := readStr_encodeStr ((lim.fits_iff _).2 h) r

/-- The formats whose first field is a STR (R83: K, KM, KMB, KLM, A, KN). -/
def strFirst : List Opcode :=
  [.cmacInit, .cmacSum, .cmacSumm, .s2v, .sivEnc, .sivDec, .gsivDerive, .gsivTag, .gsivEnc, .gsivDec]

/-- The formats that begin with two STR fields (R83: KM, KMB, A, KN). -/
def strSecond : List Opcode := [.cmacSum, .cmacSumm, .sivEnc, .sivDec, .gsivDerive, .gsivTag, .gsivEnc, .gsivDec]

/-- The commands of format A (R83). -/
def formatA : List Opcode := [.sivEnc, .sivDec, .gsivTag, .gsivEnc, .gsivDec]

section
variable {lim : Limits} {op : Opcode} {t u : Bytes} {e : Illegal}

theorem decodeFields_of_first_error (hop : op ∈ strFirst) (h : readStr lim t = .error e) :
    decodeFields lim op t = .error e := by
  cases op
  case cmacInit | cmacSum | cmacSumm | s2v | gsivDerive => simp only [decodeFields, h, bind_error]
  case sivEnc | sivDec | gsivTag | gsivEnc | gsivDec => simp only [decodeFields, readA, h, bind_error]
  all_goals exact absurd hop (by decide)

theorem decodeFields_of_second_error {x : Bytes} (hop : op ∈ strSecond) (hx : readStr lim t = .ok (x, u))
    (h : readStr lim u = .error e) : decodeFields lim op t = .error e := by
  cases op
  case cmacSum | cmacSumm | gsivDerive => simp only [decodeFields, hx, bind_ok, h, bind_error]
  case sivEnc | sivDec | gsivTag | gsivEnc | gsivDec => simp only [decodeFields, readA, hx, bind_ok, h, bind_error]
  all_goals exact absurd hop (by decide)

theorem decodeFields_of_readA_error (hop : op ∈ formatA) (h : readA lim t = .error e) :
    decodeFields lim op t = .error e := by
  cases op
  case sivEnc | sivDec | gsivTag | gsivEnc | gsivDec => simp only [decodeFields, h, bind_error]
  all_goals exact absurd hop (by decide)

end

/-! ### Lengths above MAX_LEN -/

section
variable {lim : Limits} {n : Nat} (hn : lim.maxLen < n) (h32 : n < 2 ^ 32) (t : Bytes)
include hn h32

/-- R88: a length above MAX_LEN is refused, whatever bytes follow. -/
theorem readStr_overlong : readStr lim (u32le n ++ t) = .error .lengthAboveMaxLen := by
  have hfit : ¬ lim.fits n = true := fun h => absurd ((lim.fits_iff n).1 h) (by omega)
  simp only [readStr, readNum_u32le h32, bind_ok, if_neg hfit]

/-- An element of a LIST above MAX_LEN is refused after elements that fit. -/
theorem readStrs_overlong : ∀ {comps : List Bytes} {c : Nat}, (∀ z ∈ comps, z.length ≤ lim.maxLen) → comps.length < c →
    readStrs lim c (comps.flatMap encodeStr ++ (u32le n ++ t)) = .error .lengthAboveMaxLen
  | [], c + 1, _, _ => by
    rw [readStrs, List.flatMap_nil, List.nil_append, readStr_overlong hn h32 t, bind_error]
  | z :: comps, c + 1, hz, hc => by
    obtain ⟨hz, hcomps⟩ := List.forall_mem_cons.1 hz
    simp only [readStrs, List.flatMap_cons, List.append_assoc, readStr_encodeStr_of_le hz, bind_ok,
      readStrs_overlong hcomps (Nat.lt_of_succ_lt_succ hc), bind_error]

theorem decodeWith_overlong_first {op : Opcode} (hop : op ∈ strFirst) :
    decodeWith lim ([op.byte] ++ u32le n ++ t) = .error .lengthAboveMaxLen :=
  decodeWith_of_decodeFields_error (decodeFields_of_first_error hop (readStr_overlong hn h32 t))

theorem decodeWith_overlong_second {op : Opcode} (hop : op ∈ strSecond) {x : Bytes} (hx : x.length ≤ lim.maxLen) :
    decodeWith lim (op.byte :: encodeStr x ++ u32le n ++ t) = .error .lengthAboveMaxLen := by
  simp only [List.cons_append, List.append_assoc]
  exact decodeWith_of_decodeFields_error
    (decodeFields_of_second_error hop (readStr_encodeStr_of_le hx _) (readStr_overlong hn h32 t))

theorem decodeWith_overlong_third {op : Opcode} (hop : op ∈ formatA) {x y : Bytes} (hx : x.length ≤ lim.maxLen)
    (hy : y.length ≤ lim.maxLen) :
    decodeWith lim (op.byte :: encodeStr x ++ encodeStr y ++ u32le n ++ t) = .error .lengthAboveMaxLen := by
  simp only [List.cons_append, List.append_assoc]
  refine decodeWith_of_decodeFields_error (decodeFields_of_readA_error hop ?_)
  simp only [readA, readStr_encodeStr_of_le hx, readStr_encodeStr_of_le hy, readStr_overlong hn h32 t, bind_ok, bind_error]

theorem decodeWith_overlong_fourth {op : Opcode} (hop : op ∈ formatA) {x y z : Bytes} (hx : x.length ≤ lim.maxLen)
    (hy : y.length ≤ lim.maxLen) (hz : z.length ≤ lim.maxLen) :
    decodeWith lim (op.byte :: encodeStr x ++ encodeStr y ++ encodeStr z ++ u32le n ++ t)
      = .error .lengthAboveMaxLen := by
  simp only [List.cons_append, List.append_assoc]
  refine decodeWith_of_decodeFields_error (decodeFields_of_readA_error hop ?_)
  simp only [readA, readStr_encodeStr_of_le hx, readStr_encodeStr_of_le hy, readStr_encodeStr_of_le hz,
    readStr_overlong hn h32 t, bind_ok, bind_error]

/-- The first string of formats BM and BMM, after their Block (R83). -/
theorem decodeWith_overlong_after_block {op : Opcode} (hop : op = .pvHash ∨ op = .pvDigest) (x : Block) :
    decodeWith lim (op.byte :: x.bytes ++ u32le n ++ t) = .error .lengthAboveMaxLen := by
  simp only [List.cons_append, List.append_assoc]
  refine decodeWith_of_decodeFields_error ?_
  rcases hop with rfl | rfl
  · simp only [decodeFields, readBlk_bytes, readStr_overlong hn h32 t, bind_ok, bind_error]
  · simp only [decodeFields, readBlk_bytes, readStr_overlong hn h32 t, bind_ok, bind_error]

theorem decodeWith_overlong_pvDigest_pt (h : Block) {ad : Bytes} (ha : ad.length ≤ lim.maxLen) :
    decodeWith lim (Opcode.pvDigest.byte :: h.bytes ++ encodeStr ad ++ u32le n ++ t) = .error .lengthAboveMaxLen := by
  simp only [List.cons_append, List.append_assoc]
  refine decodeWith_of_decodeFields_error ?_
  simp only [decodeFields, readBlk_bytes, readStr_encodeStr_of_le ha, readStr_overlong hn h32 t, bind_ok, bind_error]

section
variable {key : Bytes} {comps : List Bytes} (hk : key.length ≤ lim.maxLen) (hcomps : ∀ z ∈ comps, z.length ≤ lim.maxLen)
include hk hcomps

theorem decodeWith_overlong_s2v_component {c : Nat} (hc : comps.length < c) (hmax : c ≤ lim.maxComp) :
    decodeWith lim (Opcode.s2v.byte :: encodeStr key ++ u32le c ++ comps.flatMap encodeStr ++ u32le n ++ t)
      = .error .lengthAboveMaxLen := by
  simp only [List.cons_append, List.append_assoc]
  refine decodeWith_of_decodeFields_error ?_
  simp only [decodeFields, readStr_encodeStr_of_le hk, readList, readNum_u32le (hmax.trans_lt lim.maxComp_lt),
    (lim.fitsCount_iff c).2 hmax, if_true, readStrs_overlong hn h32 t hcomps hc, bind_ok, bind_error]

theorem decodeWith_overlong_s2v_final (hmax : comps.length ≤ lim.maxComp) :
    decodeWith lim (Opcode.s2v.byte :: encodeStr key ++ encodeList comps ++ u32le n ++ t)
      = .error .lengthAboveMaxLen := by
  have hlist : listOk lim comps = true :=
    Bool.and_eq_true_iff.2 ⟨(lim.fitsCount_iff _).2 hmax, List.all_eq_true.2 fun z hz => (lim.fits_iff _).2 (hcomps z hz)⟩
  simp only [List.cons_append, List.append_assoc]
  refine decodeWith_of_decodeFields_error ?_
  simp only [decodeFields, readStr_encodeStr_of_le hk, readList_encodeList hlist, readStr_overlong hn h32 t, bind_ok,
    bind_error]

end
end

/-! ### Counts above MAX_COMP -/

/-- R88: a count above MAX_COMP is refused, whatever bytes follow. -/
theorem decodeWith_overcount_s2v {lim : Limits} {key : Bytes} {c : Nat} (hk : key.length ≤ lim.maxLen)
    (hc : lim.maxComp < c) (h32 : c < 2 ^ 32) (t : Bytes) :
    decodeWith lim (Opcode.s2v.byte :: encodeStr key ++ u32le c ++ t) = .error .countAboveMaxComp := by
  have hfit : ¬ lim.fitsCount c = true := fun h => absurd ((lim.fitsCount_iff c).1 h) (by omega)
  simp only [List.cons_append, List.append_assoc]
  refine decodeWith_of_decodeFields_error ?_
  simp only [decodeFields, readStr_encodeStr_of_le hk, readList, readNum_u32le h32, if_neg hfit, bind_ok, bind_error]

/-- A statement about opcode bytes written out is one about the opcodes they name. -/
theorem forall_mem_bytes_of_opcodes {ops : List Opcode} {bs : Bytes} {P : Byte → Prop} (hbs : bs = ops.map Opcode.byte)
    (h : ∀ op ∈ ops, P op.byte) : ∀ b ∈ bs, P b := hbs ▸ List.forall_mem_map.2 h

/-! ### START -/

/-- A START that an idle core takes from the queue is issued. -/
theorem Machine.step_start {s : State} {desc : Bytes} {rest : List HostAct} (hh : s.host = .start desc :: rest)
    (hb : s.busy = false) : step s = issue desc (s.withHost rest) := by
  simp [step, portStep, hh, hostAct, hb]

end Sys2Proof
end

section
/-! The settled statements about descriptors, latching, and the step that runs a decoded command. -/

namespace Sys2Proof.Machine

/-- Settles O9: the encoder's fields read back with nothing after them. -/
theorem decodeOfEncodeGivesTheCommand : Obligations.DecodeOfEncodeGivesTheCommand := fun _ _ h => decodeWith_encode h

/-- Settles O10: each field reader takes exactly the bytes the encoder writes for the value it answers. -/
theorem encodeOfDecodeGivesTheDescriptor : Obligations.EncodeOfDecodeGivesTheDescriptor := fun _ _ _ h =>
  let ⟨hdesc, hwf⟩ := decodeWith_ok h
  ⟨hdesc.symm, hwf⟩

/-- Settles O11: the first reader that meets the field refuses it, after readers that accept the fields before it. -/
theorem unassignedAndOverlongAreIllegal : Obligations.UnassignedAndOverlongAreIllegal := by
  intro lim
  refine ⟨rfl, fun b t hb => decodeWith_unassigned lim t fun op hop => hb (hop ▸ byte_mem_assigned op), ?_,
    fun key c t hk hc h32 => decodeWith_overcount_s2v hk hc h32 t⟩
  intro n t hn h32 refused key nonce ad x hk hnonce had
  refine ⟨?first, ?second, ?thirdAndFourth, decodeWith_overlong_after_block hn h32 t (.inl rfl) x,
    decodeWith_overlong_after_block hn h32 t (.inr rfl) x, decodeWith_overlong_pvDigest_pt hn h32 t x had, fun comps hcomps =>
    ⟨fun c hc hmax => decodeWith_overlong_s2v_component hn h32 t hk hcomps hc hmax,
      fun hmax => decodeWith_overlong_s2v_final hn h32 t hk hcomps hmax⟩⟩
  case first =>
    exact forall_mem_bytes_of_opcodes (ops := strFirst) rfl fun op hop => decodeWith_overlong_first hn h32 t hop
  case second =>
    exact forall_mem_bytes_of_opcodes (ops := strSecond) rfl fun op hop => decodeWith_overlong_second hn h32 t hop hk
  case thirdAndFourth =>
    exact forall_mem_bytes_of_opcodes (ops := formatA) rfl fun op hop =>
      ⟨decodeWith_overlong_third hn h32 t hop hk hnonce, decodeWith_overlong_fourth hn h32 t hop hk hnonce had⟩

/-- Settles O12: a continued descriptor has trailing bytes, and so no front part of a descriptor is another one. -/
theorem truncatedOrTrailingIsIllegal : Obligations.TruncatedOrTrailingIsIllegal := fun _ _ h =>
  ⟨fun _ hk => decodeWith_take_encode h hk, decodeWith_encode_append h⟩

/-- Settles O2: the START is issued, and its descriptor decodes. -/
theorem stepRunsTheDecodedCommand : Obligations.StepRunsTheDecodedCommand := by
  intro s desc rest i hh hb hd
  rw [step_start hh hb, issue_of_ok hd]

/-- Settles O7: `operandsOf` writes the same registers, command by command. -/
theorem latchingFillsTheOperandRegisters : Obligations.LatchingFillsTheOperandRegisters :=
  ⟨fun _ _ => rfl, fun _ _ _ => rfl, fun _ _ _ => rfl, fun _ => rfl, fun _ _ => rfl, fun _ _ _ => rfl,
    fun _ _ _ _ => rfl, fun _ _ _ _ => rfl, fun _ _ _ _ _ => rfl, fun _ _ _ _ _ => rfl, fun _ _ _ => rfl,
    fun _ _ _ => rfl, fun _ _ _ _ => rfl, fun _ _ _ _ _ => rfl, fun _ _ _ _ _ => rfl, fun _ _ _ _ _ => rfl⟩

/-- Settles O8: the first six are what the encoder writes for their commands, and the last continues the descriptor of
CLR. -/
theorem writtenOutDescriptorsDecode : Obligations.WrittenOutDescriptorsDecode :=
  ⟨decode_of_encode_eq rfl rfl, decode_of_encode_eq rfl rfl, decode_of_encode_eq rfl rfl, decode_of_encode_eq rfl rfl,
    decode_of_encode_eq rfl rfl, decode_of_encode_eq rfl rfl, rfl, decodeWith_encode_append (i := .clr) rfl 0 []⟩

end Sys2Proof.Machine
end

section
/-! SUPPORT. The doubler (40_field128.md R110 to R113): the big-endian reading of a Block is one to one and linear, so
what holds of 128-bit numbers holds of Blocks. -/

namespace Sys2Proof.Machine

/-! ### The big-endian reading -/

/-- The bytes of a big-endian number, bit by bit (R52). -/
theorem getLsbD_get_ofBe128 (v : BitVec 128) {i k : Nat} (hi : i < 16) (hk : k < 8) :
    ((ofBe128 v).get i).getLsbD k = v.getLsbD (8 * (15 - i) + k) := by
  simp [ofBe128, hi, hk]

/-- The bits of byte `i` in the big-endian integer (R52). -/
theorem getLsbD_get (b : Block) {i k : Nat} (hi : i < 16) (hk : k < 8) :
    (b.get i).getLsbD k = (be128 b).getLsbD (8 * (15 - i) + k) := by
  rw [getLsbD_be128 b (by omega), show 15 - (8 * (15 - i) + k) / 8 = i by omega,
    show (8 * (15 - i) + k) % 8 = k by omega]

/-- `from_be128` writes back what `be128` reads (R10). -/
theorem ofBe128_be128 (b : Block) : ofBe128 (be128 b) = b :=
  Block.ext_get fun i hi => BitVec.eq_of_getLsbD_eq fun k hk => by
    rw [getLsbD_get_ofBe128 _ hi hk, getLsbD_get b hi hk]

theorem be128_injective : Function.Injective be128 := fun a b h => by
  rw [← ofBe128_be128 a, h, ofBe128_be128]

/-- XOR of Blocks is XOR of their numbers (R11). -/
theorem be128_xor (a b : Block) : be128 (a.xor b) = be128 a ^^^ be128 b :=
  BitVec.eq_of_getLsbD_eq fun k hk => by
    simp [getLsbD_be128 _ hk, Block.xor_get a b (show 15 - k / 8 < 16 by omega)]

/-! ### The doubler and its inverse on 128-bit numbers -/

/-- Shifting up and down again loses the top bit only. -/
theorem getLsbD_shiftLeft_shiftRight_one (v : BitVec 128) {k : Nat} (hk : k < 128) :
    ((v <<< 1) >>> 1).getLsbD k = (decide (k < 127) && v.getLsbD k) := by
  rw [BitVec.getLsbD_ushiftRight, BitVec.getLsbD_shiftLeft, Nat.add_sub_cancel_left]
  simp [Nat.add_comm 1 k, show k + 1 < 128 ↔ k < 127 by omega]

/-- Setting the top bit again gives the number back. -/
theorem shiftLeft_shiftRight_one_or_msb (v : BitVec 128) :
    ((v <<< 1) >>> 1) ||| (if v.msb then BitVec.twoPow 128 127 else 0) = v :=
  BitVec.eq_of_getLsbD_eq fun k hk => by
    rw [BitVec.getLsbD_or, getLsbD_shiftLeft_shiftRight_one v hk, BitVec.msb_eq_getLsbD_last]
    obtain rfl | hlt : k = 127 ∨ k < 127 := by omega
    · cases v.getLsbD 127 <;> simp
    · cases v.getLsbD 127 <;> simp [hlt, hlt.ne', BitVec.getLsbD_twoPow]

/-- The top bit that `halve` sets. -/
theorem natCast_one_shiftLeft : ((1 <<< 127 : Nat) : BitVec 128) = BitVec.twoPow 128 127 := by decide

/-- The constant makes the doubled number odd, so its low bit is the bit that was shifted out (R113). -/
theorem CmacField.getLsbD_zero_double (f : CmacField) : f.double.val.getLsbD 0 = f.val.msb := by
  cases h : f.val.msb <;> simp [CmacField.double, h]

theorem CmacField.halve_double (f : CmacField) : f.double.halve = f := by
  have htop := shiftLeft_shiftRight_one_or_msb f.val
  rw [CmacField.halve, f.getLsbD_zero_double]
  cases h : f.val.msb
  · have hd : f.double.val = f.val <<< 1 := by simp [CmacField.double, h]
    rw [h, if_neg Bool.false_ne_true] at htop
    rw [if_neg Bool.false_ne_true, hd, ← BitVec.or_zero (x := f.val <<< 1 >>> 1)]
    exact congrArg CmacField.mk htop
  · have hd : f.double.val ^^^ (0x87 : BitVec 128) = f.val <<< 1 := by
      rw [CmacField.double, h, if_pos rfl, BitVec.xor_assoc, BitVec.xor_self, BitVec.xor_zero]
    rw [h, if_pos rfl] at htop
    rw [if_pos rfl, hd, natCast_one_shiftLeft, htop]

/-! ### On Blocks -/

theorem be128_dbl (x : Block) : be128 (dbl x) = (be128 x <<< 1) ^^^ (if (be128 x).msb then 0x87 else 0) :=
  be128_ofBe128 _

theorem halve_dbl (x : Block) : halve (dbl x) = x := by
  have h : CmacField.ofBlock (dbl x) = (CmacField.ofBlock x).double := congrArg CmacField.mk (be128_ofBe128 _)
  rw [halve, h, CmacField.halve_double]
  exact ofBe128_be128 x

/-- There are finitely many Blocks, so a map undone on one side is undone on the other. -/
theorem dbl_halve (y : Block) : dbl (halve y) = y := by
  have hfin : Finite Block := Finite.of_injective be128 be128_injective
  have hsurj : Function.Surjective dbl :=
    Finite.surjective_of_injective (Function.LeftInverse.injective halve_dbl)
  exact Function.LeftInverse.rightInverse_of_surjective halve_dbl hsurj y

theorem dbl_xor (a b : Block) : dbl (a.xor b) = (dbl a).xor (dbl b) := by
  have hconst (p q : Bool) : (if p ^^ q then 0x87 else 0 : BitVec 128) =
      (if p then 0x87 else 0) ^^^ (if q then 0x87 else 0) := by
    cases p <;> cases q <;> rfl
  apply be128_injective
  simp only [be128_xor, be128_dbl, BitVec.msb_xor, BitVec.shiftLeft_xor_distrib, hconst]
  ac_rfl

/-- The constant of the reduction lies in the lowest byte (R110). -/
theorem reduction_eq_setWidth (top : Bool) :
    (if top then 0x87 else 0 : BitVec 128) = (if top then 0x87 else 0 : BitVec 8).setWidth 128 := by
  cases top <;> rfl

theorem getLsbD_reduction_of_le (top : Bool) {k : Nat} (hk : 8 ≤ k) :
    (if top then 0x87 else 0 : BitVec 128).getLsbD k = false := by
  rw [reduction_eq_setWidth, BitVec.getLsbD_setWidth, BitVec.getLsbD_of_ge _ _ hk, Bool.and_false]

theorem msb_be128 (x : Block) : (be128 x).msb = (x.get 0).getLsbD 7 := by
  rw [getLsbD_get x (by decide) (by decide)]
  exact BitVec.msb_eq_getLsbD_last _

/-- Bit `k` of the doubled number: the bit below, and the constant (R110). -/
theorem getLsbD_be128_dbl (x : Block) {k : Nat} (hk : k < 128) :
    (be128 (dbl x)).getLsbD k = ((!decide (k < 1) && (be128 x).getLsbD (k - 1)) ^^
      (if (x.get 0).getLsbD 7 then 0x87 else 0 : BitVec 128).getLsbD k) := by
  rw [be128_dbl, msb_be128, BitVec.getLsbD_xor, BitVec.getLsbD_shiftLeft, decide_eq_true hk, Bool.true_and]

/-- A byte before the last takes its lowest bit from the next byte (R110). -/
theorem get_dbl_of_lt (x : Block) {i : Nat} (hi : i < 15) :
    (dbl x).get i = (x.get i <<< 1) ||| (x.get (i + 1) >>> 7) :=
  BitVec.eq_of_getLsbD_eq fun k hk => by
    rw [getLsbD_get _ (by omega) hk, getLsbD_be128_dbl x (by omega), getLsbD_reduction_of_le _ (by omega),
      Bool.xor_false, decide_eq_false (by omega), Bool.not_false, Bool.true_and]
    cases k with
    | zero =>
      rw [show 8 * (15 - i) + 0 - 1 = 8 * (15 - (i + 1)) + 7 by omega, ← getLsbD_get x (by omega) (by decide)]
      simp
    | succ k =>
      have hcarry : (x.get (i + 1)).getLsbD (7 + (k + 1)) = false := BitVec.getLsbD_of_ge _ _ (by omega)
      rw [← Nat.add_assoc, Nat.add_sub_cancel, ← getLsbD_get x (by omega) (by omega)]
      simp [hk, hcarry, show k < 8 by omega]

/-- The last byte takes the constant (R110). -/
theorem get_dbl_last (x : Block) :
    (dbl x).get 15 = (x.get 15 <<< 1) ^^^ (if (x.get 0).getLsbD 7 then 0x87 else 0) :=
  BitVec.eq_of_getLsbD_eq fun k hk => by
    rw [getLsbD_get _ (by decide) hk, getLsbD_be128_dbl x (by omega), reduction_eq_setWidth]
    cases k with
    | zero => simp
    | succ k =>
      rw [← Nat.add_assoc, Nat.add_sub_cancel, ← getLsbD_get x (by decide) (by omega)]
      simp [hk, show k < 8 by omega, show k + 1 < 128 by omega]

end Sys2Proof.Machine
end

section
/-! SUPPORT. Bit vectors as polynomials over GF(2): what XOR, shifts and cuts are there. -/

namespace Sys2Proof.Machine

open Polynomial

/-- The coefficients of a sum of powers of x that bits pick out. -/
theorem coeff_sum_bits (n : Nat) (f : Nat → Bool) (k : Nat) :
    (∑ j ∈ Finset.range n, if f j then (X : (ZMod 2)[X]) ^ j else 0).coeff k = if k < n ∧ f k then 1 else 0 := by
  have hterm (j : Nat) : (if f j then (X : (ZMod 2)[X]) ^ j else 0).coeff k =
      if k = j then if f k then 1 else 0 else 0 := by
    obtain rfl | hj := eq_or_ne k j
    · cases f k <;> simp
    · cases f j <;> simp [coeff_X_pow, hj]
  rw [finsetSum_coeff, Finset.sum_congr rfl fun j _ => hterm j]
  simp [ite_and]

/-- The polynomial of a bit vector: bit `j` is the coefficient of `x^j`. -/
noncomputable def bitsPoly {w : Nat} (v : BitVec w) : (ZMod 2)[X] :=
  ∑ j ∈ Finset.range w, if v.getLsbD j then X ^ j else 0

@[simp] theorem coeff_bitsPoly {w : Nat} (v : BitVec w) (k : Nat) :
    (bitsPoly v).coeff k = if v.getLsbD k then 1 else 0 := by
  rw [bitsPoly, coeff_sum_bits]
  by_cases hk : k < w
  · simp [hk]
  · simp [hk, BitVec.getLsbD_of_ge v k (not_lt.1 hk)]

@[simp] theorem bitsPoly_zero (w : Nat) : bitsPoly 0#w = 0 := by ext k; simp

@[simp] theorem bitsPoly_xor {w : Nat} (a b : BitVec w) : bitsPoly (a ^^^ b) = bitsPoly a + bitsPoly b := by
  ext k
  cases ha : a.getLsbD k <;> cases hb : b.getLsbD k <;> simp [ha, hb, CharTwo.add_self_eq_zero]

/-- In a vector wide enough for it, a shift is a product with a power of x. -/
theorem bitsPoly_setWidth_shiftLeft {w w' : Nat} (v : BitVec w) {n : Nat} (h : n + w ≤ w') :
    bitsPoly (v.setWidth w' <<< n) = bitsPoly v * X ^ n := by
  ext k
  rw [coeff_bitsPoly, coeff_mul_X_pow', coeff_bitsPoly, BitVec.getLsbD_shiftLeft, BitVec.getLsbD_setWidth]
  obtain hk | ⟨hn, hk⟩ | ⟨hn, hk⟩ : k < n ∨ n ≤ k ∧ k - n < w ∨ n ≤ k ∧ w ≤ k - n := by omega
  · simp [hk, not_le.2 hk]
  · simp [hn, show k < w' by omega, show k - n < w' by omega]
  · simp [BitVec.getLsbD_of_ge v _ hk]

@[simp] theorem bitsPoly_setWidth {w w' : Nat} (v : BitVec w) (h : w ≤ w') :
    bitsPoly (v.setWidth w') = bitsPoly v := by
  simpa using bitsPoly_setWidth_shiftLeft v (n := 0) (w' := w') (by omega)

/-- A product with a power of x is a shift, and the bits that leave the vector above. -/
theorem bitsPoly_mul_X_pow {w : Nat} (v : BitVec w) {n : Nat} (h : n ≤ w) :
    bitsPoly v * X ^ n = bitsPoly (v <<< n) + bitsPoly (v >>> (w - n)) * X ^ w := by
  ext k
  rw [coeff_add, coeff_mul_X_pow', coeff_mul_X_pow', coeff_bitsPoly, coeff_bitsPoly, coeff_bitsPoly,
    BitVec.getLsbD_shiftLeft, BitVec.getLsbD_ushiftRight]
  obtain hk | ⟨hn, hk⟩ | hk : k < n ∨ n ≤ k ∧ k < w ∨ w ≤ k := by omega
  · simp [hk, not_le.2 hk, not_le.2 (hk.trans_le h)]
  · simp [hk, hn, not_le.2 hk, not_lt.2 hn]
  · simp [hk, not_lt.2 hk, h.trans hk, show w - n + (k - w) = k - n by omega]

/-- Bits that stand next to each other, cut in two. -/
theorem bitsPoly_extractLsb'_add {w : Nat} (v : BitVec w) (s m n : Nat) :
    bitsPoly (v.extractLsb' s (m + n)) =
      bitsPoly (v.extractLsb' s m) + bitsPoly (v.extractLsb' (s + m) n) * X ^ m := by
  ext k
  rw [coeff_add, coeff_mul_X_pow', coeff_bitsPoly, coeff_bitsPoly, coeff_bitsPoly]
  simp only [BitVec.getLsbD_extractLsb']
  by_cases hk : k < m
  · simp [hk, not_le.2 hk, show k < m + n by omega]
  · simp [hk, not_lt.1 hk, show k < m + n ↔ k - m < n by omega, show s + m + (k - m) = s + k by omega]

/-- 256 bits as four limbs. -/
theorem bitsPoly_eq_limbs (t : BitVec 256) :
    bitsPoly t = bitsPoly (t.extractLsb' 0 64) + bitsPoly (t.extractLsb' 64 64) * X ^ 64 +
      bitsPoly (t.extractLsb' 128 64) * X ^ 128 + bitsPoly (t.extractLsb' 192 64) * X ^ 192 := by
  have h0 : bitsPoly t = bitsPoly (t.extractLsb' 0 64) + bitsPoly (t.extractLsb' 64 192) * X ^ 64 := by
    simpa using bitsPoly_extractLsb'_add t 0 64 192
  have h1 : bitsPoly (t.extractLsb' 64 192) =
      bitsPoly (t.extractLsb' 64 64) + bitsPoly (t.extractLsb' 128 128) * X ^ 64 :=
    bitsPoly_extractLsb'_add t 64 64 128
  have h2 : bitsPoly (t.extractLsb' 128 128) =
      bitsPoly (t.extractLsb' 128 64) + bitsPoly (t.extractLsb' 192 64) * X ^ 64 :=
    bitsPoly_extractLsb'_add t 128 64 64
  rw [h0, h1, h2]
  ring

end Sys2Proof.Machine
end

section
/-! SUPPORT. Blocks as polynomials over GF(2): the bytes and the two limbs of a Block give the same one, and the
polynomial gives the Block back (20_memory.md R53). -/

namespace Sys2Proof.Machine

open Polynomial

/-- The bits of a byte at place `i` of a little-endian integer (R10). -/
theorem getLsbD_byte_at_place {w : Nat} (b : Byte) (i : Nat) {k : Nat} (hk : k < w) :
    (b.setWidth w <<< (8 * i)).getLsbD k = (decide (k / 8 = i) && b.getLsbD (k % 8)) := by
  rw [BitVec.getLsbD_shiftLeft, BitVec.getLsbD_setWidth]
  obtain rfl | hi := eq_or_ne (k / 8) i
  · simp [hk, show k - 8 * (k / 8) = k % 8 by omega, show ¬k < 8 * (k / 8) by omega, show k % 8 < w by omega]
  · obtain hlt | hge : k < 8 * i ∨ 8 ≤ k - 8 * i := by omega
    · simp [hi, hlt]
    · simp [hi, BitVec.getLsbD_of_ge b _ hge]

/-- Bit `k` of the little-endian integer of eight bytes is bit `k mod 8` of byte `k div 8` (R10). -/
theorem getLsbD_le64 (t : Bytes) {k : Nat} (hk : k < 64) :
    (le64 t).getLsbD k = (t.getD (k / 8) 0).getLsbD (k % 8) := by
  have hbyte : k / 8 < 8 := by omega
  rw [le64, getLsbD_foldl_or, Bool.eq_iff_iff]
  simp only [getLsbD_byte_at_place _ _ hk]
  simp [hbyte]

@[simp] theorem length_u64le (v : BitVec 64) : (u64le v).length = 8 := by simp [u64le]

/-- `le64` reads back what `u64le` writes (R10). -/
@[simp] theorem le64_u64le (v : BitVec 64) : le64 (u64le v) = v := by
  apply BitVec.eq_of_getLsbD_eq
  intro k hk
  simp [getLsbD_le64 _ hk, u64le, show k / 8 < 8 by omega, Nat.mod_lt, Nat.div_add_mod]

/-- The two limbs read back what was written from them (R117). -/
@[simp] theorem PolyvalField.ofBlock_toBlock (f : PolyvalField) : ofBlock f.toBlock = f := by
  have hbytes : f.toBlock.bytes = u64le f.lo ++ u64le f.hi := Block.bytes_ofBytes (by simp)
  rw [ofBlock, hbytes, List.take_left' (length_u64le _), List.drop_left' (length_u64le _), le64_u64le, le64_u64le]

theorem getLsbD_lo_ofBlock (b : Block) {k : Nat} (hk : k < 64) :
    (PolyvalField.ofBlock b).lo.getLsbD k = coeffOf b k := by
  rw [PolyvalField.ofBlock, getLsbD_le64 _ hk, coeffOf, Block.get]
  simp [List.getD_eq_getElem?_getD, show k / 8 < 8 by omega, show k / 8 < 16 by omega]

theorem getLsbD_hi_ofBlock (b : Block) {k : Nat} (hk : k < 64) :
    (PolyvalField.ofBlock b).hi.getLsbD k = coeffOf b (64 + k) := by
  rw [PolyvalField.ofBlock, getLsbD_le64 _ hk, coeffOf, Block.get, show (64 + k) / 8 = 8 + k / 8 by omega,
    show (64 + k) % 8 = k % 8 by omega]
  simp [List.getD_eq_getElem?_getD]

/-- The polynomial of two limbs (R53). -/
noncomputable def PolyvalField.poly (f : PolyvalField) : (ZMod 2)[X] := bitsPoly f.lo + bitsPoly f.hi * X ^ 64

theorem coeff_polyOf (b : Block) (k : Nat) : (polyOf b).coeff k = if k < 128 ∧ coeffOf b k then 1 else 0 :=
  coeff_sum_bits 128 (coeffOf b) k

/-- The bytes of a Block and its limbs give the same polynomial (R53). -/
theorem polyOf_eq_poly_ofBlock (b : Block) : polyOf b = (PolyvalField.ofBlock b).poly := by
  ext k
  rw [coeff_polyOf, PolyvalField.poly, coeff_add, coeff_mul_X_pow', coeff_bitsPoly, coeff_bitsPoly]
  obtain hk | ⟨hlo, hk⟩ | hk : k < 64 ∨ 64 ≤ k ∧ k < 128 ∨ 128 ≤ k := by omega
  · rw [getLsbD_lo_ofBlock b hk]
    simp [show k < 128 by omega, not_le.2 hk]
  · rw [getLsbD_hi_ofBlock b (by omega), Nat.add_sub_cancel' hlo]
    simp [hk, hlo]
  · simp [not_lt.2 hk, show 64 ≤ k by omega, BitVec.getLsbD_of_ge, show 64 ≤ k - 64 by omega]

theorem polyOf_toBlock (f : PolyvalField) : polyOf f.toBlock = f.poly := by
  rw [polyOf_eq_poly_ofBlock, PolyvalField.ofBlock_toBlock]

theorem polyOf_injective : Function.Injective polyOf := by
  intro a b h
  have hbit : ∀ k < 128, coeffOf a k = coeffOf b k := fun k hk => by
    have hcoeff : (polyOf a).coeff k = (polyOf b).coeff k := by rw [h]
    rw [coeff_polyOf, coeff_polyOf] at hcoeff
    cases ha : coeffOf a k <;> cases hb : coeffOf b k <;> simp_all
  refine Block.ext_get fun i hi => BitVec.eq_of_getLsbD_eq fun k hk => ?_
  simpa [coeffOf, show (8 * i + k) / 8 = i by omega, show (8 * i + k) % 8 = k by omega]
    using hbit (8 * i + k) (by omega)

theorem degree_polyOf_lt (b : Block) : (polyOf b).degree < (128 : Nat) := by
  rw [degree_lt_iff_coeff_zero]
  intro k hk
  rw [coeff_polyOf, if_neg (by omega)]

@[simp] theorem polyOf_zero : polyOf Block.zero = 0 := by simp [polyOf, coeffOf]

@[simp] theorem polyOf_xor (a b : Block) : polyOf (a.xor b) = polyOf a + polyOf b := by
  ext k
  rw [coeff_add, coeff_polyOf, coeff_polyOf, coeff_polyOf]
  by_cases hk : k < 128
  · have hx : coeffOf (a.xor b) k = (coeffOf a k ^^ coeffOf b k) := by
      rw [coeffOf, Block.xor_get a b (by omega), BitVec.getLsbD_xor]; rfl
    cases ha : coeffOf a k <;> cases hb : coeffOf b k <;> simp [hk, hx, ha, hb, CharTwo.add_self_eq_zero]
  · simp [hk]

end Sys2Proof.Machine
end

section
/-! SUPPORT. The POLYVAL multiplier (40_field128.md R115 to R119): the limb products and the folding rounds as
polynomials, and the laws of a product that a congruence fixes. -/

namespace Sys2Proof.Machine

open Polynomial

/-! ### The unreduced product (R116) -/

/-- The carry-less product over the low `n` bits of `b`. -/
theorem bitsPoly_foldl_clmul64 (a b : BitVec 64) {n : Nat} (hn : n ≤ 64) :
    bitsPoly ((List.range n).foldl (fun acc i => if b.getLsbD i then acc ^^^ (a.setWidth 128 <<< i) else acc) 0) =
      bitsPoly a * ∑ j ∈ Finset.range n, if b.getLsbD j then X ^ j else 0 := by
  induction n with
  | zero => simp
  | succ n ih =>
    rw [List.range_succ, List.foldl_append, List.foldl_cons, List.foldl_nil, Finset.sum_range_succ, mul_add,
      ← ih (by omega)]
    split
    · rw [bitsPoly_xor, bitsPoly_setWidth_shiftLeft a (by omega)]
    · rw [mul_zero, add_zero]

theorem bitsPoly_clmul64 (a b : BitVec 64) : bitsPoly (clmul64 a b) = bitsPoly a * bitsPoly b :=
  bitsPoly_foldl_clmul64 a b le_rfl

/-- Three limb products are enough: the middle one has the two outer ones in it twice over (R116). -/
theorem bitsPoly_product (a b : PolyvalField) : bitsPoly (a.product b) = a.poly * b.poly := by
  simp only [PolyvalField.product, bitsPoly_xor, bitsPoly_clmul64, bitsPoly_setWidth, bitsPoly_setWidth_shiftLeft,
    Nat.reduceLeDiff, Nat.reduceAdd, PolyvalField.poly]
  linear_combination (bitsPoly a.lo * bitsPoly b.lo + bitsPoly a.hi * bitsPoly b.hi) * X ^ 64 *
    CharTwo.two_eq_zero (R := (ZMod 2)[X])

/-! ### The reduction (R117) -/

/-- What a cleared limb adds to the two limbs above it is its product with the middle of P (R117). -/
theorem bitsPoly_foldUp_add_foldOver (t : BitVec 64) :
    bitsPoly (foldUp t) + bitsPoly (foldOver t) * X ^ 64 = bitsPoly t * (X ^ 64 + X ^ 63 + X ^ 62 + X ^ 57) := by
  have h63 := bitsPoly_mul_X_pow t (n := 63) (by decide)
  have h62 := bitsPoly_mul_X_pow t (n := 62) (by decide)
  have h57 := bitsPoly_mul_X_pow t (n := 57) (by decide)
  simp only [foldUp, foldOver, bitsPoly_xor]
  linear_combination -(h63 + h62 + h57)

/-- Clearing the low limb `t0` adds `t0 * P`, clearing the limb `t1` above it adds `t1 * x^64 * P`, and the upper half
is what is left (R117). -/
theorem exists_poly_reduce (t : BitVec 256) : ∃ q, (reduce t).poly * X ^ 128 = bitsPoly t + polyvalP * q := by
  generalize h0 : t.extractLsb' 0 64 = t0
  generalize h1 : t.extractLsb' 64 64 ^^^ foldUp t0 = t1
  have hr : (reduce t).poly = bitsPoly (t.extractLsb' 128 64) + bitsPoly (foldOver t0) + bitsPoly (foldUp t1) +
      (bitsPoly (t.extractLsb' 192 64) + bitsPoly (foldOver t1)) * X ^ 64 := by
    simp only [reduce, PolyvalField.poly, bitsPoly_xor, h0, h1]
  have ht1 : bitsPoly t1 = bitsPoly (t.extractLsb' 64 64) + bitsPoly (foldUp t0) := by rw [← h1, bitsPoly_xor]
  refine ⟨bitsPoly t0 + bitsPoly t1 * X ^ 64, ?_⟩
  rw [bitsPoly_eq_limbs, hr, h0]
  unfold polyvalP
  linear_combination X ^ 64 * bitsPoly_foldUp_add_foldOver t0 + X ^ 128 * bitsPoly_foldUp_add_foldOver t1 +
    X ^ 64 * ht1 - (bitsPoly t0 + bitsPoly t1 * X ^ 64) * CharTwo.two_eq_zero (R := (ZMod 2)[X])

/-- The congruence of R115, as an equation with the multiple of P. -/
theorem exists_polyOf_pmul (a b : Block) : ∃ q, polyOf (pmul a b) * X ^ 128 = polyOf a * polyOf b + polyvalP * q := by
  obtain ⟨q, hq⟩ := exists_poly_reduce ((PolyvalField.ofBlock a).product (PolyvalField.ofBlock b))
  refine ⟨q, ?_⟩
  rw [pmul, polyOf_toBlock, PolyvalField.dot, hq, bitsPoly_product, polyOf_eq_poly_ofBlock a, polyOf_eq_poly_ofBlock b]

/-! ### Congruences modulo a polynomial with a constant coefficient

Over any field, and with the congruences as equations: ZMod 2 is a ring by two ways, and to compare a divisibility
stated by one with a divisibility stated by the other, Lean computes powers of x. -/

section
variable {K : Type*} [Field K] {P : K[X]} (h0 : P.coeff 0 ≠ 0) {n : Nat}
include h0

/-- Powers of x can be cancelled. -/
theorem dvd_of_dvd_mul_X_pow {p : K[X]} (h : P ∣ p * X ^ n) : P ∣ p :=
  have hX : IsCoprime P X := (irreducible_X.coprime_iff_not_dvd.2 fun h => h0 (X_dvd_iff.1 h)).symm
  hX.pow_right.dvd_of_dvd_mul_right h

/-- A polynomial of degree below that of P is fixed by what its product with a power of x is congruent to. -/
theorem eq_of_mul_X_pow_eq {p q r u v : K[X]} (hp : p.degree < P.degree) (hq : q.degree < P.degree)
    (hpr : p * X ^ n = r + P * u) (hqr : q * X ^ n = r + P * v) : p = q := by
  have hdvd : P ∣ p - q := dvd_of_dvd_mul_X_pow h0 (n := n) ⟨u - v, by linear_combination hpr - hqr⟩
  exact sub_eq_zero.1 (eq_zero_of_dvd_of_degree_lt hdvd ((degree_sub_le p q).trans_lt (max_lt hp hq)))

/-- The product with the factor `x^(-n)` is associative. -/
theorem exists_mul_X_pow_eq_assoc {a b c ab bc r u v w : K[X]} (hab : ab * X ^ n = a * b + P * u)
    (hbc : bc * X ^ n = b * c + P * v) (hr : r * X ^ n = a * bc + P * w) : ∃ q, r * X ^ n = ab * c + P * q := by
  obtain ⟨z, hz⟩ : P ∣ a * bc - ab * c :=
    dvd_of_dvd_mul_X_pow h0 (n := n) ⟨a * v - u * c, by linear_combination a * hbc - c * hab⟩
  exact ⟨w + z, by linear_combination hr + hz⟩

end

/-! ### The laws (R119) -/

theorem degree_polyvalP : polyvalP.degree = (128 : Nat) := by unfold polyvalP; compute_degree!

theorem coeff_zero_polyvalP : polyvalP.coeff 0 ≠ 0 := by unfold polyvalP; simp [coeff_X_pow]

/-- R115 fixes the value of the product. -/
theorem pmul_eq_of_polyOf {a b r : Block} {q : (ZMod 2)[X]}
    (h : polyOf r * X ^ 128 = polyOf a * polyOf b + polyvalP * q) : pmul a b = r := by
  have hdeg (c : Block) : (polyOf c).degree < polyvalP.degree := by rw [degree_polyvalP]; exact degree_polyOf_lt c
  obtain ⟨_, hab⟩ := exists_polyOf_pmul a b
  exact polyOf_injective (eq_of_mul_X_pow_eq coeff_zero_polyvalP (hdeg _) (hdeg _) hab h)

theorem pmul_comm (a b : Block) : pmul a b = pmul b a := by
  obtain ⟨_, hba⟩ := exists_polyOf_pmul b a
  exact pmul_eq_of_polyOf (hba.trans (by rw [mul_comm (polyOf b)]))

theorem pmul_zero (a : Block) : pmul a Block.zero = Block.zero := pmul_eq_of_polyOf (q := 0) (by simp)

theorem xor_pmul (a b c : Block) : pmul (a.xor c) b = (pmul a b).xor (pmul c b) := by
  obtain ⟨q, hab⟩ := exists_polyOf_pmul a b
  obtain ⟨r, hcb⟩ := exists_polyOf_pmul c b
  refine pmul_eq_of_polyOf (q := q + r) ?_
  rw [polyOf_xor, polyOf_xor]
  linear_combination hab + hcb

/-- The Block `01 00..00 c2`. -/
def pmulOne : Block := Block.ofFn fun i => if i = 0 then 0x01 else if i = 15 then 0xC2 else 0

/-- The polynomial of the identity is what `x^128` leaves modulo P. -/
theorem polyOf_pmulOne : polyOf pmulOne = 1 + X ^ 121 + X ^ 126 + X ^ 127 := by
  have hbits : {j ∈ Finset.range 128 | coeffOf pmulOne j} = {0, 121, 126, 127} := by decide
  rw [polyOf, ← Finset.sum_filter, hbits]
  simp [add_assoc]

theorem pmul_one (a : Block) : pmul a pmulOne = a := by
  refine pmul_eq_of_polyOf (q := polyOf a) ?_
  rw [polyOf_pmulOne]
  unfold polyvalP
  linear_combination -polyOf a * (1 + X ^ 121 + X ^ 126 + X ^ 127) * CharTwo.two_eq_zero (R := (ZMod 2)[X])

theorem pmul_assoc (a b c : Block) : pmul (pmul a b) c = pmul a (pmul b c) := by
  obtain ⟨_, hab⟩ := exists_polyOf_pmul a b
  obtain ⟨_, hbc⟩ := exists_polyOf_pmul b c
  obtain ⟨_, hr⟩ := exists_polyOf_pmul a (pmul b c)
  obtain ⟨_, h⟩ := exists_mul_X_pow_eq_assoc coeff_zero_polyvalP hab hbc hr
  exact pmul_eq_of_polyOf h

end Sys2Proof.Machine
end

section
/-! The settled statements about the two field units. -/

namespace Sys2Proof.Machine

/-- Settles O13: the result of each command in closed form. -/
theorem leafCommandsCommitTheirValue : Obligations.LeafCommandsCommitTheirValue :=
  ⟨fun x s => exec_eq_result (.dbl x) s, fun a b s => exec_eq_result (.pmul a b) s, fun s => exec_eq_result .clr s⟩

/-- Settles O29: the bytes are those of the big-endian number, whose bits move up by one. -/
theorem dblShiftsBytesAndReduces : Obligations.DblShiftsBytesAndReduces :=
  fun x => ⟨fun _ hi => get_dbl_of_lt x hi, get_dbl_last x, be128_dbl x⟩

/-- Settles O30: the low bit of `dbl x` tells which constant to take back; the other side follows because there are
finitely many Blocks. -/
theorem halveUndoesDblAndDblIsLinear : Obligations.HalveUndoesDblAndDblIsLinear := ⟨halve_dbl, dbl_halve, dbl_xor⟩

/-- Settles O31: the limb products are the product of the polynomials, and each folding round adds a multiple of P. -/
theorem pmulIsThePolyvalProduct : Obligations.PmulIsThePolyvalProduct := by
  intro a b
  obtain ⟨q, h⟩ := exists_polyOf_pmul a b
  exact ⟨q, by rw [h, add_sub_cancel_left]⟩

/-- Settles O32: each side has the other's congruence modulo P, which fixes it. -/
theorem pmulLaws : Obligations.PmulLaws := ⟨pmul_comm, pmul_zero, xor_pmul, pmul_one⟩

/-- Settles O33: both sides times `x^256` are the product of all three modulo P, and powers of x can be cancelled. -/
theorem pmulIsAssociative : Obligations.PmulIsAssociative := pmul_assoc

end Sys2Proof.Machine
end

section
/-! SUPPORT. CMAC (41_cmac.md R133, R136): the Blocks a message splits into, the calls of an XOR-chained run, and the
masked message. -/

namespace Sys2Proof.Machine

/-! ### Messages made of whole Blocks -/

theorem length_flatMap_bytes (bs : List Block) : (bs.flatMap Block.bytes).length = 16 * bs.length := by
  simp [List.length_flatMap, Nat.mul_comm]

/-- The first Block of a string, and then those of the rest. -/
theorem blks_succ (t : Bytes) (n : Nat) : blks t (n + 1) = blk t 0 :: blks (t.drop 16) n := by
  simp [blks, blk, memRead, List.range_succ_eq_map, Nat.mul_add, Nat.add_comm]

/-- Splitting gives back the Blocks a string was made of, whatever follows them (R57). -/
theorem blks_flatMap_bytes_append (r : Bytes) : ∀ bs : List Block,
    blks (bs.flatMap Block.bytes ++ r) bs.length = bs
  | [] => rfl
  | b :: bs => by
    have hfirst : blk (b.bytes ++ (bs.flatMap Block.bytes ++ r)) 0 = b := by
      simp [blk, memRead, List.take_left' b.length_bytes]
    rw [List.flatMap_cons, List.append_assoc, List.length_cons, blks_succ, hfirst, List.drop_left' b.length_bytes,
      blks_flatMap_bytes_append r bs]

/-! ### The two forms of a message: a full last Block, or a padded tail (R133) -/

theorem fullLast_iff (msg : Bytes) : fullLast msg = true ↔ 0 < msg.length ∧ msg.length % 16 = 0 := by
  simp [fullLast]

section
variable (bs : List Block)

theorem fullLast_append_block (last : Block) : fullLast (bs.flatMap Block.bytes ++ last.bytes) = true := by
  rw [fullLast_iff, List.length_append, length_flatMap_bytes, last.length_bytes]; omega

theorem cmacHead_append_block (last : Block) : cmacHead (bs.flatMap Block.bytes ++ last.bytes) = bs := by
  have hcount : cmacHeadCount (bs.flatMap Block.bytes ++ last.bytes) = bs.length := by
    rw [cmacHeadCount, if_pos (fullLast_append_block bs last), List.length_append, length_flatMap_bytes,
      last.length_bytes]
    omega
  rw [cmacHead, hcount, blks_flatMap_bytes_append]

theorem cmacLast_append_block (c : CmacKeys) (last : Block) :
    cmacLast c (bs.flatMap Block.bytes ++ last.bytes) = last.xor c.k1 := by
  have hread : memRead (bs.flatMap Block.bytes ++ last.bytes)
      ((bs.flatMap Block.bytes ++ last.bytes).length - 16) 16 = last.bytes := by
    simp [memRead]
  simp only [cmacLast, if_pos (fullLast_append_block bs last), hread, Block.ofBytes_bytes]

variable {bs} {tail : Bytes} (hlt : tail.length < 16) (hne : bs = [] ∨ tail ≠ [])
include hlt

theorem length_append_tail_div : (bs.flatMap Block.bytes ++ tail).length / 16 = bs.length := by
  rw [List.length_append, length_flatMap_bytes]; omega

include hne

theorem fullLast_append_tail : ¬ fullLast (bs.flatMap Block.bytes ++ tail) = true := by
  rw [fullLast_iff, List.length_append, length_flatMap_bytes]
  rintro ⟨hpos, hmod⟩
  have htail : tail.length = 0 := by omega
  rcases hne with rfl | hne
  · simp [htail] at hpos
  · exact hne (List.eq_nil_of_length_eq_zero htail)

theorem cmacHead_append_tail : cmacHead (bs.flatMap Block.bytes ++ tail) = bs := by
  rw [cmacHead, cmacHeadCount, if_neg (fullLast_append_tail hlt hne), length_append_tail_div hlt,
    blks_flatMap_bytes_append]

theorem cmacLast_append_tail (c : CmacKeys) :
    cmacLast c (bs.flatMap Block.bytes ++ tail) = (pad80 tail).xor c.k2 := by
  simp only [cmacLast, if_neg (fullLast_append_tail hlt hne), length_append_tail_div hlt,
    List.drop_left' (length_flatMap_bytes bs)]

end

/-! ### XOR-chained runs -/

section
variable (o : Oracles) (ck : Bytes)

/-- The chaining value after the Blocks `bs`, from `x` (R133). -/
def chainFrom (x : Block) (bs : List Block) : Block := bs.foldl (fun x b => o.E ck (x.xor b)) x

theorem cmacChain_eq_chainFrom (c : CmacKeys) (msg : Bytes) :
    cmacChain o c msg = chainFrom o c.ck Block.zero (cmacHead msg) := rfl

/-- A run over two lists goes on from the chaining value after the first. -/
theorem chainCalls_append (cs : List Block) : ∀ (bs : List Block) (x : Block),
    chainCalls o ck x (bs ++ cs) = chainCalls o ck x bs ++ chainCalls o ck (chainFrom o ck x bs) cs
  | [], _ => rfl
  | b :: bs, x => congrArg (OracleCall.bco ck (x.xor b) :: ·) (chainCalls_append cs bs _)

/-- Call `j` presents the chaining value before it XOR Block `j` (R133). -/
theorem chainCalls_eq_map : ∀ (bs : List Block) (x : Block), chainCalls o ck x bs =
    (List.range bs.length).map fun j => .bco ck ((chainFrom o ck x (bs.take j)).xor (bs.getD j Block.zero))
  | [], _ => rfl
  | b :: bs, x => by
    rw [chainCalls, chainCalls_eq_map bs, List.length_cons, List.range_succ_eq_map, List.map_cons, List.map_map]
    rfl

theorem length_chainCalls (x : Block) (bs : List Block) : (chainCalls o ck x bs).length = bs.length := by
  simp [chainCalls_eq_map]

theorem eq_bco_of_mem_chainCalls {x : Block} {bs : List Block} {call : OracleCall} (h : call ∈ chainCalls o ck x bs) :
    ∃ b, call = .bco ck b := by
  rw [chainCalls_eq_map, List.mem_map] at h
  obtain ⟨j, -, rfl⟩ := h
  exact ⟨_, rfl⟩

end

/-! ### The value and the calls of `cmac_sum` -/

section
variable (o : Oracles) (c : CmacKeys)

/-- The calls of `cmac_sum`: one for each non-final Block, then one for the final input (R133). -/
theorem cmacSumCalls_eq (msg : Bytes) : cmacSumCalls o c msg =
    chainCalls o c.ck Block.zero (cmacHead msg) ++ [.bco c.ck ((cmacChain o c msg).xor (cmacLast c msg))] :=
  chainCalls_append o c.ck _ _ _

/-- The number of calls is `max(1, ceil(n / 16))` (R140). -/
theorem length_cmacSumCalls (msg : Bytes) : (cmacSumCalls o c msg).length = cmacWork msg.length := by
  have hhead : (cmacHead msg).length = cmacHeadCount msg := by simp [cmacHead, blks]
  rw [cmacSumCalls, length_chainCalls, List.length_append, List.length_singleton, hhead, cmacHeadCount, cmacWork]
  split
  · have := (fullLast_iff msg).1 ‹_›; omega
  · have := mt (fullLast_iff msg).2 ‹_›; omega

/-- On a message that splits into the Blocks `bs` and a whitened final Block `w`, the final input is the chaining value
after `bs` XOR `w`, and the calls are those of the run over `bs` and the one on that input. -/
theorem cmacSum_and_calls_of_split {bs : List Block} {msg : Bytes} {w : Block} (hhead : cmacHead msg = bs)
    (hlast : cmacLast c msg = w) :
    cmacSum o c msg = o.E c.ck ((chainFrom o c.ck Block.zero (bs.take bs.length)).xor w) ∧
    cmacSumCalls o c msg =
      ((List.range bs.length).map fun j =>
        .bco c.ck ((chainFrom o c.ck Block.zero (bs.take j)).xor (bs.getD j Block.zero))) ++
      [.bco c.ck ((chainFrom o c.ck Block.zero (bs.take bs.length)).xor w)] := by
  subst hhead hlast
  rw [List.take_length, ← chainCalls_eq_map, ← cmacChain_eq_chainFrom, cmacSumCalls_eq]
  exact ⟨rfl, rfl⟩

end

/-! ### The masked message (R136) -/

theorem maskLast_of_lt {msg : Bytes} (h : msg.length < 16) (mask : Block) : maskLast msg mask = msg :=
  if_neg (Nat.not_le.2 h)

theorem maskLast_of_ge {msg : Bytes} (h : 16 ≤ msg.length) (mask : Block) : maskLast msg mask =
    msg.take (msg.length - 16) ++ xorBytes (msg.drop (msg.length - 16)) mask.bytes := if_pos h

@[simp] theorem length_maskLast (msg : Bytes) (mask : Block) : (maskLast msg mask).length = msg.length := by
  rcases Nat.lt_or_ge msg.length 16 with h | h
  · rw [maskLast_of_lt h]
  · rw [maskLast_of_ge h, List.length_append, List.length_take, length_xorBytes, List.length_drop, mask.length_bytes]
    omega

theorem getD_xorBytes {a b : Bytes} {i : Nat} (ha : i < a.length) (hb : i < b.length) :
    (xorBytes a b).getD i 0 = a.getD i 0 ^^^ b.getD i 0 := by
  simp [xorBytes, List.getD_eq_getElem?_getD, ha, hb]

/-- The bytes before the last sixteen stay, and the last sixteen are XORed with the mask. -/
theorem getD_maskLast {msg : Bytes} (h : 16 ≤ msg.length) (mask : Block) {i : Nat} (hi : i < msg.length) :
    (maskLast msg mask).getD i 0 =
      if i < msg.length - 16 then msg.getD i 0 else msg.getD i 0 ^^^ mask.get (i - (msg.length - 16)) := by
  have htake : (msg.take (msg.length - 16)).length = msg.length - 16 := by simp
  rw [maskLast_of_ge h]
  split_ifs with hlow
  · rw [List.getD_append _ _ _ _ (by omega)]
    simp [List.getD_eq_getElem?_getD, hlow, hi]
  · have hpos : msg.length - 16 + (i - (msg.length - 16)) = i := by omega
    rw [List.getD_append_right _ _ _ _ (by omega), htake,
      getD_xorBytes (by rw [List.length_drop]; omega) (by rw [mask.length_bytes]; omega), Block.get]
    simp [List.getD_eq_getElem?_getD, hpos]

end Sys2Proof.Machine
end

section
/-! SUPPORT. The accepted branch of the commands whose key goes to BCO as it is (41_cmac.md R139). -/

namespace Sys2Proof.Machine

/-- With a key of 16, 24 or 32 bytes such a command leaves its accepted result `r`. -/
theorem exec_of_bcoKey {i : Instr} {key : Bytes} {r : CommandResult}
    (hkey : key.length = 16 ∨ key.length = 24 ∨ key.length = 32)
    (hi : resultOf Config.oracles i = if bcoKeyLen key.length then r else refusedWith .invalidKeySize) (s : State) :
    exec i s = .next (r.leaves s) := by
  rw [exec_eq_result, hi, if_pos ((bcoKeyLen_iff _).2 hkey)]

end Sys2Proof.Machine
end

section
/-! SUPPORT. The numbers of oracle calls (41_cmac.md R140, 43_siv.md R171, 44_gcmsiv_kdf.md R185,
45_polyval_gcmsiv.md R209, 70_reset_and_hazards.md R273): functions of lengths, unit by unit, and then command by
command. -/

namespace Sys2Proof.Machine

/-- Of the calls `cs`, `b` are on the BCO port and `k` on the CTRKS port. -/
def CallCounts (cs : List OracleCall) (b k : Nat) : Prop :=
  cs.countP OracleCall.isBco = b ∧ cs.countP (fun c => !c.isBco) = k

/-! ### Lists of calls -/

theorem callCounts_nil : CallCounts [] 0 0 := ⟨rfl, rfl⟩

theorem callCounts_bco (key : Bytes) (x : Block) : CallCounts [.bco key x] 1 0 := ⟨rfl, rfl⟩

theorem callCounts_ctrks (key : Bytes) (seed : Block) (n : Nat) (inc : Inc) :
    CallCounts [.ctrks key seed n inc] 0 1 := ⟨rfl, rfl⟩

theorem CallCounts.append {cs ds : List OracleCall} {b k b' k' : Nat} (hc : CallCounts cs b k)
    (hd : CallCounts ds b' k') : CallCounts (cs ++ ds) (b + b') (k + k') := by
  obtain ⟨hb, hk⟩ := hc
  obtain ⟨hb', hk'⟩ := hd
  exact ⟨by rw [List.countP_append, hb, hb'], by rw [List.countP_append, hk, hk']⟩

/-- Calls that are all on the BCO port. -/
theorem callCounts_of_forall_isBco {cs : List OracleCall} (h : ∀ c ∈ cs, c.isBco = true) :
    CallCounts cs cs.length 0 :=
  ⟨List.countP_eq_length.2 h, List.countP_eq_zero.2 fun c hc => by simp [h c hc]⟩

/-- A command that passes its length check makes the calls of the accepted case, and none otherwise. -/
theorem callCounts_checked {p : Prop} [Decidable p] {r : CommandResult} {e : Status} {b k : Nat}
    (h : CallCounts r.calls b k) :
    CallCounts (if p then r else refusedWith e).calls (if p then b else 0) (if p then k else 0) := by
  split
  · exact h
  · exact callCounts_nil

/-- The same for a command with no call on the CTRKS port. -/
theorem callCounts_checked_bco {p : Prop} [Decidable p] {r : CommandResult} {e : Status} {b : Nat}
    (h : CallCounts r.calls b 0) :
    CallCounts (if p then r else refusedWith e).calls (if p then b else 0) 0 := by
  simpa using callCounts_checked (p := p) (e := e) h

/-- The same for the short-input check, which refuses where it holds. -/
theorem callCounts_unless {p : Bool} {r : CommandResult} {e : Status} {b k : Nat} (h : CallCounts r.calls b k) :
    CallCounts (if p then refusedWith e else r).calls (if p = false then b else 0) (if p = false then k else 0) := by
  cases p
  · exact h
  · exact callCounts_nil

/-! ### The calls of the units -/

theorem callCounts_cmacInitCalls (key : Bytes) : CallCounts (cmacInitCalls key) 1 0 := callCounts_bco _ _

theorem callCounts_cmacSumCalls (o : Oracles) (c : CmacKeys) (msg : Bytes) :
    CallCounts (cmacSumCalls o c msg) (cmacWork msg.length) 0 := by
  rw [← length_cmacSumCalls o c]
  refine callCounts_of_forall_isBco fun call hcall => ?_
  obtain ⟨x, rfl⟩ := eq_bco_of_mem_chainCalls o c.ck hcall
  rfl

theorem callCounts_components (o : Oracles) (c : CmacKeys) : ∀ comps : List Bytes,
    CallCounts (comps.flatMap (cmacSumCalls o c)) ((comps.map List.length).map cmacWork).sum 0
  | [] => callCounts_nil
  | t :: ts => (callCounts_cmacSumCalls o c t).append (callCounts_components o c ts)

/-- A final message below 16 bytes is padded to one Block, which takes as many calls as the message alone. -/
theorem cmacWork_s2vFinal (d : Block) (fin : Bytes) : cmacWork (s2vFinal d fin).length = cmacWork fin.length := by
  unfold s2vFinal
  split
  · rw [length_maskLast]
  · rw [Block.length_bytes, cmacWork, cmacWork]; omega

/-- The calls of S2V: the subkeys, `d0`, the components, the final message (R153). -/
theorem callCounts_s2vCalls (o : Oracles) (key : Bytes) (comps : List Bytes) (fin : Bytes) :
    CallCounts (s2vCalls o key comps fin) (s2vWork (comps.map List.length) fin.length) 0 := by
  have hstart : CallCounts (cmacSumCalls o (cmacInit o key) (zeros 16)) 1 0 := callCounts_cmacSumCalls _ _ _
  have hfinal := callCounts_cmacSumCalls o (cmacInit o key) (s2vFinal (s2vFold o (cmacInit o key) comps) fin)
  rw [cmacWork_s2vFinal] at hfinal
  exact (((callCounts_cmacInitCalls key).append hstart).append (callCounts_components o _ comps)).append hfinal

/-- An empty nonce or associated data is no component (R162, R171). -/
theorem s2vWork_sivComps (nonce ad : Bytes) (n : Nat) :
    s2vWork ((sivComps nonce ad).map List.length) n = sivWork nonce.length ad.length n := by
  unfold s2vWork sivComps sivWork
  split_ifs <;> simp [Nat.add_assoc]

theorem callCounts_sivCalls (o : Oracles) (key nonce ad pt : Bytes) :
    CallCounts (s2vCalls o key (sivComps nonce ad) pt) (sivWork nonce.length ad.length pt.length) 0 :=
  s2vWork_sivComps nonce ad _ ▸ callCounts_s2vCalls o key _ pt

theorem callCounts_gsivDeriveCalls (key nonce : Bytes) :
    CallCounts (gsivDeriveCalls key nonce) (2 + key.length / 8) 0 := by
  have hall : ∀ c ∈ gsivDeriveCalls key nonce, c.isBco = true := List.forall_mem_map.2 fun _ _ => rfl
  simpa [gsivDeriveCalls] using callCounts_of_forall_isBco hall

/-- The derivation and the tag's one call, with any CTRKS calls beside it (R209). -/
theorem callCounts_gsivDeriveCalls_append (key nonce : Bytes) {cs : List OracleCall} {k : Nat} (h : CallCounts cs 1 k) :
    CallCounts (gsivDeriveCalls key nonce ++ cs) (3 + key.length / 8) k := by
  simpa [Nat.add_right_comm 2 _ 1] using (callCounts_gsivDeriveCalls key nonce).append h

/-- The keystream pass keeps the length of the ciphertext (R167). -/
theorem length_sivCrypt (o : Oracles) (key : Bytes) (tag : Block) (data : Bytes) :
    (sivCrypt o key tag data).length = data.length := by simp [sivCrypt]

/-! ### The commands -/

/-- The result of every command has made as many calls as its lengths say (R273). -/
theorem callCounts_resultOf (o : Oracles) (i : Instr) : CallCounts (resultOf o i).calls (bcoWork i) (ctrksWork i) := by
  cases i with
  | dbl | pmul | cteq | clr | pvHash | pvDigest => exact callCounts_nil
  | cmacInit key => exact callCounts_checked_bco (callCounts_cmacInitCalls key)
  | cmacSum key msg =>
    exact callCounts_checked_bco ((callCounts_cmacInitCalls key).append (callCounts_cmacSumCalls o _ msg))
  | cmacSumm key msg mask =>
    have hmasked := callCounts_cmacSumCalls o (cmacInit o key) (maskLast msg mask)
    rw [length_maskLast] at hmasked
    exact callCounts_checked_bco ((callCounts_cmacInitCalls key).append hmasked)
  | s2v key comps fin => exact callCounts_checked_bco (callCounts_s2vCalls o key comps fin)
  | sivEnc key nonce ad msg =>
    exact callCounts_checked ((callCounts_sivCalls o _ nonce ad msg).append (callCounts_ctrks _ _ _ _))
  | sivDec key nonce ad msg =>
    have hcalls := callCounts_sivCalls o (sivMacKey key) nonce ad (sivCrypt o key (tagOf msg) (ctOf msg))
    rw [length_sivCrypt, length_ctOf] at hcalls
    simp only [bcoWork, ctrksWork, Bool.and_eq_true, ite_and, Bool.not_eq_true']
    refine callCounts_checked (callCounts_unless ?_)
    rw [verified_calls]
    simpa using (callCounts_ctrks _ _ _ _).append hcalls
  | gsivDerive key nonce =>
    simp only [bcoWork, ctrksWork, Bool.and_eq_true, ite_and]
    exact callCounts_checked_bco (callCounts_checked_bco (callCounts_gsivDeriveCalls key nonce))
  | gsivTag key nonce ad msg =>
    simp only [bcoWork, ctrksWork, Bool.and_eq_true, ite_and]
    exact callCounts_checked_bco (callCounts_checked_bco
      (callCounts_gsivDeriveCalls_append key nonce (callCounts_bco _ _)))
  | gsivEnc key nonce ad msg =>
    simp only [bcoWork, ctrksWork, Bool.and_eq_true, ite_and]
    exact callCounts_checked (callCounts_checked
      (callCounts_gsivDeriveCalls_append key nonce ((callCounts_bco _ _).append (callCounts_ctrks _ _ _ _))))
  | gsivDec key nonce ad msg =>
    simp only [bcoWork, ctrksWork, Bool.and_eq_true, ite_and, Bool.not_eq_true']
    refine callCounts_checked (callCounts_checked (callCounts_unless ?_))
    rw [verified_calls]
    exact callCounts_gsivDeriveCalls_append key nonce ((callCounts_ctrks _ _ _ _).append (callCounts_bco _ _))

end Sys2Proof.Machine
end

section
/-! The settled statements about CMAC and the numbers of oracle calls. -/

namespace Sys2Proof.Machine

/-- Settles O16: the result under a legal key, which is the call of `cmac_init` and its two doublings. -/
theorem cmacInitCommitsTheSubkeys : Obligations.CmacInitCommitsTheSubkeys :=
  fun key s h => (exec_of_bcoKey (i := .cmacInit key) h rfl s :)

/-- Settles O17: the result under a legal key; the subkey call comes before those of `cmac_sum`. -/
theorem cmacSumCommitsTheMac : Obligations.CmacSumCommitsTheMac :=
  fun key msg s h => (exec_of_bcoKey (i := .cmacSum key msg) h rfl s :)

/-- Settles O18: the result under a legal key; the calls are those of CMAC.SUM on the masked message. -/
theorem cmacSummCommitsTheMaskedMac : Obligations.CmacSummCommitsTheMaskedMac :=
  fun key msg mask s h => (exec_of_bcoKey (i := .cmacSumm key msg mask) h rfl s :)

/-- Settles O34: both forms of the message split into the Blocks `bs` and their whitened final Block. -/
theorem cmacChainsAndWhitens : Obligations.CmacChainsAndWhitens :=
  fun o c bs => ⟨
    fun last => cmacSum_and_calls_of_split o c (cmacHead_append_block bs last) (cmacLast_append_block bs c last),
    fun _ hlt hne => cmacSum_and_calls_of_split o c (cmacHead_append_tail hlt hne) (cmacLast_append_tail hlt hne c),
    fun msg => ⟨length_cmacSumCalls o c msg, fun _ hcall => eq_bco_of_mem_chainCalls o c.ck hcall⟩⟩

/-- Settles O35, from the masked message byte by byte. -/
theorem cmacSummMasksTheLastSixteenBytes : Obligations.CmacSummMasksTheLastSixteenBytes :=
  fun _ _ msg mask =>
    ⟨rfl, length_maskLast msg mask, fun h => maskLast_of_lt h mask, fun h _ hi => getD_maskLast h mask hi⟩

/-- Settles O49: the calls a command leaves recorded are those of its result. -/
theorem oracleCallCountsDependOnLengthsOnly : Obligations.OracleCallCountsDependOnLengthsOnly := by
  intro i s t h
  rw [exec_eq_result] at h
  obtain rfl := Host.Outcome.next.inj h
  exact callCounts_resultOf Config.oracles i

end Sys2Proof.Machine
end

section
/-! SUPPORT. S2V (42_s2v.md R151 to R155): CMAC of one whole Block, the fold and its closed form, the final step, the
calls, and the value under the constant cipher. -/

namespace Sys2Proof.Machine

/-! ### CMAC of one whole Block -/

section
variable (o : Oracles) (c : CmacKeys) (b : Block)

/-- CMAC of one whole Block is one call, whitened with K1, whose answer is the value (R133). -/
theorem cmacSum_and_calls_block :
    cmacSum o c b.bytes = o.E c.ck (b.xor c.k1) ∧ cmacSumCalls o c b.bytes = [.bco c.ck (b.xor c.k1)] := by
  simpa [chainFrom] using
    cmacSum_and_calls_of_split o c (cmacHead_append_block [] b) (cmacLast_append_block [] c b)

theorem cmacSum_block : cmacSum o c b.bytes = o.E c.ck (b.xor c.k1) := (cmacSum_and_calls_block o c b).1

theorem cmacSumCalls_block : cmacSumCalls o c b.bytes = [.bco c.ck (b.xor c.k1)] := (cmacSum_and_calls_block o c b).2

end

/-! ### The fold -/

theorem bytes_zero_eq_zeros : Block.zero.bytes = zeros 16 := rfl

section
variable (o : Oracles) (c : CmacKeys)

/-- The fold starts from the cipher on K1 (R151). -/
theorem cmacSum_zeros : cmacSum o c (zeros 16) = o.E c.ck c.k1 := by
  rw [← bytes_zero_eq_zeros, cmacSum_block, Block.zero_xor]

theorem cmacSumCalls_zeros : cmacSumCalls o c (zeros 16) = [.bco c.ck c.k1] := by
  rw [← bytes_zero_eq_zeros, cmacSumCalls_block, Block.zero_xor]

theorem s2vFold_nil : s2vFold o c [] = o.E c.ck c.k1 := cmacSum_zeros o c

/-- The last component is added to the double of the fold over those before it (R151). -/
theorem s2vFold_append_singleton (comps : List Bytes) (last : Bytes) :
    s2vFold o c (comps ++ [last]) = (dbl (s2vFold o c comps)).xor (cmacSum o c last) := by
  simp [s2vFold]

/-- Doubling an XOR over a list doubles its start value and each of its terms. -/
theorem dbl_foldl_xor {α : Type} (f : α → Block) (l : List α) (start : Block) :
    dbl (l.foldl (fun acc i => acc.xor (f i)) start) = l.foldl (fun acc i => acc.xor (dbl (f i))) (dbl start) :=
  (List.foldl_hom dbl fun x i => (dbl_xor x (f i)).symm).symm

/-- Each further component doubles the weight of the start value and of the components before it (R155). -/
theorem s2vFold_eq_foldl_range (comps : List Bytes) :
    s2vFold o c comps = (List.range comps.length).foldl
      (fun acc i => acc.xor (dbl^[comps.length - 1 - i] (cmacSum o c (comps.getD i []))))
      (dbl^[comps.length] (o.E c.ck c.k1)) := by
  induction comps using List.reverseRecOn with
  | nil => exact s2vFold_nil o c
  | append_singleton comps last ih =>
    have hweight : ∀ i ∈ List.range comps.length,
        dbl (dbl^[comps.length - 1 - i] (cmacSum o c (comps.getD i []))) =
          dbl^[comps.length - i] (cmacSum o c ((comps ++ [last]).getD i [])) := fun i hi => by
      have hlt : i < comps.length := List.mem_range.1 hi
      rw [List.getD_append _ _ _ _ hlt, ← Function.iterate_succ_apply' dbl,
        show (comps.length - 1 - i).succ = comps.length - i by omega]
    have hlast : (comps ++ [last]).getD comps.length [] = last := by simp
    rw [s2vFold_append_singleton, ih, dbl_foldl_xor, ← Function.iterate_succ_apply' dbl, List.length_append,
      List.length_singleton, List.range_succ, List.foldl_append, Nat.add_sub_cancel, List.foldl_cons, List.foldl_nil,
      Nat.sub_self, hlast]
    exact congrArg (Block.xor · (cmacSum o c last)) (List.foldl_ext _ _ _ fun acc i hi => by rw [hweight i hi])

end

/-! ### The final step and the calls -/

section
variable (o : Oracles) (key : Bytes) (comps : List Bytes) {fin : Bytes}

/-- A final message of 16 bytes or more is masked with `d` itself (R152). -/
theorem s2vFinal_of_ge (h : 16 ≤ fin.length) (d : Block) : s2vFinal d fin = maskLast fin d := if_pos h

/-- A shorter one is padded and XORed with the double of `d` (R152). -/
theorem s2vFinal_of_lt (h : fin.length < 16) (d : Block) : s2vFinal d fin = ((pad80 fin).xor (dbl d)).bytes :=
  if_neg (Nat.not_le.2 h)

/-- The value of S2V, and its calls: the subkeys, `d0`, the components in list order, the final message (R153). -/
theorem s2v_and_calls_of_final {msg : Bytes} (h : s2vFinal (s2vFold o (cmacInit o key) comps) fin = msg) :
    s2v o key comps fin = cmacSum o (cmacInit o key) msg ∧
    s2vCalls o key comps fin =
      [.bco key Block.zero, .bco key (cmacInit o key).k1] ++ comps.flatMap (cmacSumCalls o (cmacInit o key)) ++
        cmacSumCalls o (cmacInit o key) msg := by
  subst h
  simp only [s2vCalls, cmacSumCalls_zeros]
  exact ⟨rfl, rfl⟩

end

/-! ### The ciphers of the test vectors -/

/-- BCO of the reference collaborators is the cipher they are made of (R65). -/
theorem referenceOracles_E (cipher : Bytes → Block → Block) (key : Bytes) (b : Block) :
    (referenceOracles cipher).E key b = cipher key b := Block.ofFn_get _

theorem cmacSum_constOracles (c : CmacKeys) (msg : Bytes) : cmacSum constOracles c msg = Block.zero :=
  referenceOracles_E constCipher _ _

end Sys2Proof.Machine
end

section
/-! The settled statements about S2V. -/

namespace Sys2Proof.Machine

/-- Settles O19: the result under a legal key. -/
theorem s2vCommitsTheSyntheticIv : Obligations.S2vCommitsTheSyntheticIv :=
  fun key comps fin s h => (exec_of_bcoKey (i := .s2v key comps fin) h rfl s :)

/-- Settles O36: the fold one component at a time, and the value and calls for each branch of the final step. In the
short branch the final message is one whole Block, so `cmac_sum` of it is one call. -/
theorem s2vFoldsInListOrder : Obligations.S2vFoldsInListOrder := by
  intro o key comps last fin c d front
  refine ⟨rfl, cmacSum_zeros o c, s2vFold_append_singleton o c comps last, fun hlong => ?_, fun hshort => ?_⟩
  · exact s2v_and_calls_of_final o key comps (s2vFinal_of_ge hlong d)
  · obtain ⟨hvalue, hcalls⟩ := s2v_and_calls_of_final o key comps (s2vFinal_of_lt hshort d)
    exact ⟨hvalue, hcalls.trans (congrArg (front ++ ·) (cmacSumCalls_block o c _))⟩

/-- Settles O37: the closed form of the fold; the two toy vectors by evaluation; and every CMAC under the constant cipher
is its one answer. -/
theorem s2vWeighsComponentsByTheirPlace : Obligations.S2vWeighsComponentsByTheirPlace :=
  ⟨fun o key comps => s2vFold_eq_foldl_range o (cmacInit o key) comps, by decide +kernel,
    fun _ _ _ => cmacSum_constOracles _ _⟩

end Sys2Proof.Machine
end

section
/-! SUPPORT. The SIV mode (43_siv.md R160 to R168): the seeds bit by bit, the comparison of the tags, the results of the
two commands under a legal key, and the keystream pass undoing itself. -/

namespace Sys2Proof.Machine

/-! ### The seeds bit by bit -/

/-- The mask 0x7f has every bit of a byte but bit 7. -/
theorem getLsbD_and_0x7f (b : Byte) {k : Nat} (hk : k < 8) :
    (b &&& 0x7f).getLsbD k = if k = 7 then false else b.getLsbD k := by
  have hmask : (0x7f : Byte).getLsbD k = !decide (k = 7) := by decide +revert
  rw [BitVec.getLsbD_and, hmask]
  split <;> simp [*]

/-- The mask 0x80 has bit 7 alone. -/
theorem getLsbD_or_0x80 (b : Byte) {k : Nat} (hk : k < 8) :
    (b ||| 0x80).getLsbD k = if k = 7 then true else b.getLsbD k := by
  have hmask : (0x80 : Byte).getLsbD k = decide (k = 7) := by decide +revert
  rw [BitVec.getLsbD_or, hmask]
  split <;> simp [*]

section
variable (t : Block) {i k : Nat} (hi : i < 16) (hk : k < 8)
include hi hk

theorem getLsbD_get_sivSeed :
    ((sivSeed t).get i).getLsbD k = if (i = 8 ∨ i = 12) ∧ k = 7 then false else (t.get i).getLsbD k := by
  rw [sivSeed, Block.get_ofFn _ hi, ite_and]
  split
  · exact getLsbD_and_0x7f _ hk
  · rfl

theorem getLsbD_get_gsivSeed :
    ((gsivSeed t).get i).getLsbD k = if i = 15 ∧ k = 7 then true else (t.get i).getLsbD k := by
  rw [gsivSeed, Block.get_ofFn _ hi, ite_and]
  split
  · exact getLsbD_or_0x80 _ hk
  · rfl

end

/-! ### The comparison of the tags (R168, R220) -/

/-- An OR over a list is zero when its start value and all its terms are. -/
theorem foldl_or_eq_zero_iff {w : Nat} (f : Nat → BitVec w) : ∀ (l : List Nat) (acc : BitVec w),
    l.foldl (fun acc i => acc ||| f i) acc = 0#w ↔ acc = 0#w ∧ ∀ i ∈ l, f i = 0#w
  | [], acc => by simp
  | i :: l, acc => by simp [foldl_or_eq_zero_iff f l, and_assoc]

/-- The comparator finds all 128 bits equal exactly on equal Blocks (R220). -/
theorem cteq_iff (a b : Block) : cteq a b = true ↔ a = b := by
  rw [cteq, beq_iff_eq, foldl_or_eq_zero_iff]
  constructor
  · rintro ⟨-, hbytes⟩
    exact Block.ext_get fun i hi => BitVec.xor_eq_zero_iff.1 (hbytes i (List.mem_range.2 hi))
  · rintro rfl
    exact ⟨rfl, fun _ _ => BitVec.xor_self⟩

theorem verified_self (tag : Block) (pt : Bytes) (cs : List OracleCall) :
    verified tag tag pt cs = ⟨.ok, true, pt, cs⟩ := if_pos ((cteq_iff _ _).2 rfl)

theorem verified_of_ne {expected tag : Block} (h : expected ≠ tag) (pt : Bytes) (cs : List OracleCall) :
    verified expected tag pt cs = ⟨.authenticationFailed, false, [], cs⟩ := if_neg (mt (cteq_iff _ _).1 h)

/-! ### The operands as the statements spell them -/

theorem sivMacKey_eq_take (key : Bytes) : sivMacKey key = key.take (key.length / 2) := rfl

/-- The second half of the key is all that follows the first (R160). -/
theorem sivEncKey_eq_drop (key : Bytes) : sivEncKey key = key.drop (key.length / 2) :=
  List.take_of_length_le (by rw [List.length_drop])

/-- A component is left out when it is the empty string (R162). -/
theorem sivComps_eq (nonce ad : Bytes) :
    sivComps nonce ad = (if nonce = [] then [] else [nonce]) ++ (if ad = [] then [] else [ad]) := by
  simp only [sivComps, gt_iff_lt, List.length_pos_iff, ite_not]

/-! ### The commands under a legal key -/

/-- The keystream pass undoes itself (R170). -/
theorem sivCrypt_sivCrypt (o : Oracles) (key : Bytes) (tag : Block) (data : Bytes) :
    sivCrypt o key tag (sivCrypt o key tag data) = data := by
  conv_lhs => rw [sivCrypt, length_sivCrypt]
  exact xorBytes_cancel (Oracles.length_KS _ _ _ _ _).symm

section
variable {key : Bytes} (hkey : key.length = 32 ∨ key.length = 64) (nonce ad : Bytes)
include hkey

/-- SIV.ENC answers `ct || tag` (R164). -/
theorem exec_sivEnc (pt : Bytes) (s : State) :
    let tag := sivTag Config.oracles key nonce ad pt
    exec (.sivEnc key nonce ad pt) s = .next (finished .ok false (sivCrypt Config.oracles key tag pt ++ tag.bytes)
      (s2vCalls Config.oracles (sivMacKey key) (sivComps nonce ad) pt ++
        [.ctrks (sivEncKey key) (sivSeed tag) pt.length .be128]) s) := by
  rw [exec_eq_result, resultOf, if_pos ((sivKeyLen_iff _).2 hkey)]
  rfl

/-- SIV.DEC of `ct || tag` compares the tag of the recovered plaintext with the received one (R167). -/
theorem exec_sivDec_append (ct : Bytes) (tag : Block) (s : State) :
    let pt := sivCrypt Config.oracles key tag ct
    exec (.sivDec key nonce ad (ct ++ tag.bytes)) s = .next (CommandResult.leaves
      (verified (sivTag Config.oracles key nonce ad pt) tag pt
        (.ctrks (sivEncKey key) (sivSeed tag) ct.length .be128 ::
          s2vCalls Config.oracles (sivMacKey key) (sivComps nonce ad) pt)) s) := by
  have hlong : ¬ shortInput (ct ++ tag.bytes).length = true := by simp [shortInput]
  simp only [exec_eq_result, resultOf, if_pos ((sivKeyLen_iff _).2 hkey), if_neg hlong, ctOf_append, tagOf_append]

end

end Sys2Proof.Machine
end

section
/-! The settled statements about the SIV mode. -/

namespace Sys2Proof.Machine

/-- Settles O20: the result under a legal key, with the key halves and the components spelled out. -/
theorem sivEncCommitsCiphertextAndTag : Obligations.SivEncCommitsCiphertextAndTag := by
  intro key nonce ad pt s hkey
  rw [← sivMacKey_eq_take, ← sivEncKey_eq_drop, ← sivComps_eq]
  exact exec_sivEnc hkey nonce ad pt s

/-- Settles O21: the two answers of the comparison at VerifyTag. -/
theorem sivDecReleasesOnlyOnTagMatch : Obligations.SivDecReleasesOnlyOnTagMatch := by
  intro key nonce ad ct tag s hkey
  rw [← sivMacKey_eq_take, ← sivEncKey_eq_drop, ← sivComps_eq]
  intro mac enc comps pt calls
  have hrun : exec (.sivDec key nonce ad (ct ++ tag.bytes)) s =
      .next (CommandResult.leaves (verified (s2v Config.oracles mac comps pt) tag pt calls) s) :=
    exec_sivDec_append hkey nonce ad ct tag s
  constructor
  · intro hmatch
    rw [hrun, hmatch, verified_self]; rfl
  · intro hdiffer
    rw [hrun, verified_of_ne hdiffer]; rfl

/-- Settles O38: each seed masks bit 7 of its bytes alone. -/
theorem seedsChangeOnlyTheirBits : Obligations.SeedsChangeOnlyTheirBits :=
  fun t _ _ hi hk => ⟨getLsbD_get_sivSeed t hi hk, getLsbD_get_gsivSeed t hi hk⟩

/-- Settles O45: the second keystream pass, from the same tag, gives the plaintext, whose tag is the received one. -/
theorem sivRoundTrip : Obligations.SivRoundTrip := by
  intro key nonce ad pt s s' t hkey henc
  rw [exec_sivEnc hkey] at henc
  obtain rfl := Host.Outcome.next.inj henc
  have hdec (tag : Block) := exec_sivDec_append hkey nonce ad (sivCrypt Config.oracles key tag pt) tag s'
  simp only [sivCrypt_sivCrypt] at hdec
  exact ⟨_, (hdec _).trans (by rw [verified_self]; rfl)⟩

end Sys2Proof.Machine
end

section
/-! SUPPORT. The GSIV subkeys (44_gcmsiv_kdf.md): the counter blocks and halves byte by byte, and the accepted branch of
the commands that take a master key and a nonce. -/

namespace Sys2Proof.Machine

/-- The `u32le` of a number that fits one byte. -/
theorem u32le_of_lt_256 {n : Nat} (h : n < 256) : u32le n = [BitVec.ofNat 8 n, 0, 0, 0] := by
  have h₁ : n / 2 ^ 8 = 0 := by omega
  have h₂ : n / 2 ^ 16 = 0 := by omega
  have h₃ : n / 2 ^ 24 = 0 := by omega
  rw [u32le, h₁, h₂, h₃]; rfl

/-- A nonce of 12 bytes fills the counter block: nothing is cut off or padded (R181). -/
theorem bytes_gsivCounterBlock {nonce : Bytes} (hnonce : nonce.length = 12) (j : Nat) :
    (gsivCounterBlock j nonce).bytes = u32le j ++ nonce :=
  Block.bytes_ofBytes (by rw [List.length_append, length_u32le, hnonce])

/-- A half is 8 bytes (R183). -/
@[simp] theorem length_gsivHalf (o : Oracles) (key nonce : Bytes) (j : Nat) : (gsivHalf o key nonce j).length = 8 := by
  simp [gsivHalf]

/-- Two halves fill AUTHKEY (R181). -/
theorem bytes_gsivAuthKey (o : Oracles) (key nonce : Bytes) :
    (gsivAuthKey o key nonce).bytes = gsivHalf o key nonce 0 ++ gsivHalf o key nonce 1 :=
  Block.bytes_ofBytes (by simp)

/-- ENCKEY is two halves for a 16-byte key and four for a 32-byte key (R181). -/
theorem gsivEncKey_eq_halves (o : Oracles) {key : Bytes} (hkey : key.length = 16 ∨ key.length = 32) (nonce : Bytes) :
    let half := gsivHalf o key nonce
    gsivEncKey o key nonce = if key.length = 16 then half 2 ++ half 3 else half 2 ++ half 3 ++ half 4 ++ half 5 := by
  obtain h | h := hkey <;> simp [gsivEncKey, h, List.range_succ]

/-- Two calls for AUTHKEY and one for every 8 bytes of ENCKEY are 4 or 6 (R181). -/
theorem two_add_div_eight_of_gsivKey {n : Nat} (hn : n = 16 ∨ n = 32) : 2 + n / 8 = if n = 16 then 4 else 6 := by
  obtain rfl | rfl := hn <;> rfl

/-- With a legal key and nonce such a command leaves its accepted result `r` (R180). -/
theorem exec_of_gsivKey {i : Instr} {key nonce : Bytes} {r : CommandResult}
    (hkey : key.length = 16 ∨ key.length = 32) (hnonce : nonce.length = 12)
    (hi : resultOf Config.oracles i =
      if gsivKeyLen key.length then if gsivNonceLen nonce.length then r else refusedWith .invalidNonceSize
      else refusedWith .invalidKeySize) (s : State) :
    exec i s = .next (r.leaves s) := by
  have hn : gsivNonceLen nonce.length = true := by rw [gsivNonceLen, hnonce]; rfl
  rw [exec_eq_result, hi, if_pos ((gsivKeyLen_iff _).2 hkey), if_pos hn]

end Sys2Proof.Machine
end

section
/-! The settled statements about the GSIV subkeys. -/

namespace Sys2Proof.Machine

/-- Settles O22: the result under a legal key and nonce, with the derivation's calls. -/
theorem gsivDeriveCommitsTheSubkeys : Obligations.GsivDeriveCommitsTheSubkeys :=
  fun key nonce s hkey hnonce => (exec_of_gsivKey (i := .gsivDerive key nonce) hkey hnonce rfl s :)

/-- Settles O39: the counter block of an index below 6 has that index in its first byte; the halves fill the subkeys. -/
theorem gsivSubkeysAreHalvesOfCipherOutputs : Obligations.GsivSubkeysAreHalvesOfCipherOutputs := by
  intro o key nonce hkey hnonce half
  refine ⟨fun j hj => ?_, bytes_gsivAuthKey o key nonce, gsivEncKey_eq_halves o hkey nonce, ?_⟩
  · rw [bytes_gsivCounterBlock hnonce, u32le_of_lt_256 (by omega)]
  · rw [gsivDeriveCalls, two_add_div_eight_of_gsivKey hkey]

end Sys2Proof.Machine
end

section
/-! SUPPORT. POLYVAL (45_polyval_gcmsiv.md R190 to R196): absorbing goes on Block by Block across whole strings, and the
length Block byte by byte. -/

namespace Sys2Proof.Machine

/-! ### Padding to whole Blocks (R59) -/

/-- A string of whole Blocks is not padded. -/
theorem zpad16_of_whole {t : Bytes} (h : t.length % 16 = 0) : zpad16 t = t := by simp [zpad16, h, zeros]

/-- Padding looks at the bytes after the last whole Block only. -/
theorem zpad16_append {t : Bytes} (h : t.length % 16 = 0) (u : Bytes) : zpad16 (t ++ u) = t ++ zpad16 u := by
  have hmod : (t ++ u).length % 16 = u.length % 16 := by rw [List.length_append]; omega
  rw [zpad16, hmod, List.append_assoc, zpad16]

/-- A tail of 1 to 15 bytes is padded to one Block. -/
theorem zpad16_tail {t : Bytes} (hpos : 0 < t.length) (hlt : t.length < 16) :
    zpad16 t = (Block.ofBytes (t ++ zeros (16 - t.length))).bytes := by
  have hcount : (16 - t.length % 16) % 16 = 16 - t.length := by omega
  rw [zpad16, hcount, Block.bytes_ofBytes (by rw [List.length_append, length_zeros]; omega)]

/-- A string of whole Blocks is made of the Blocks it splits into (R57). -/
theorem flatMap_bytes_blks {n : Nat} : ∀ {t : Bytes}, t.length = 16 * n → (blks t n).flatMap Block.bytes = t := by
  induction n with
  | zero => intro t h; exact (List.eq_nil_of_length_eq_zero h).symm
  | succ n ih =>
    intro t h
    have hfirst : (blk t 0).bytes = t.take 16 := Block.bytes_ofBytes (by rw [memRead]; simp; omega)
    have hrest := ih (t := t.drop 16) (by rw [List.length_drop]; omega)
    rw [blks_succ, List.flatMap_cons, hfirst, hrest, List.take_append_drop]

theorem exists_eq_flatMap_bytes {t : Bytes} (h : t.length % 16 = 0) : ∃ bs : List Block, t = bs.flatMap Block.bytes :=
  ⟨_, (flatMap_bytes_blks (n := t.length / 16) (by omega)).symm⟩

/-! ### Absorbing (R191) -/

section
variable (h acc : Block)

/-- Whole Blocks are absorbed in order. -/
theorem absorb_flatMap_bytes (bs : List Block) :
    absorb h acc (bs.flatMap Block.bytes) = bs.foldl (absorbBlock h) acc := by
  have hwhole : zpad16 (bs.flatMap Block.bytes) = bs.flatMap Block.bytes :=
    zpad16_of_whole (by rw [length_flatMap_bytes]; omega)
  have hcount : (bs.flatMap Block.bytes).length / 16 = bs.length := by rw [length_flatMap_bytes]; omega
  have hsplit := blks_flatMap_bytes_append [] bs
  rw [List.append_nil] at hsplit
  rw [absorb, hwhole, hcount, hsplit]

theorem absorb_block (x : Block) : absorb h acc x.bytes = absorbBlock h acc x := by
  simpa using absorb_flatMap_bytes h acc [x]

/-- A string counts as zero-padded. -/
theorem absorb_zpad16 (t : Bytes) : absorb h acc (zpad16 t) = absorb h acc t := by
  rw [absorb, zpad16_of_whole (length_zpad16_mod t), absorb]

/-- After whole Blocks absorbing goes on from the accumulator they leave. -/
theorem absorb_append {t : Bytes} (ht : t.length % 16 = 0) (u : Bytes) :
    absorb h acc (t ++ u) = absorb h (absorb h acc t) u := by
  obtain ⟨cs, hu⟩ := exists_eq_flatMap_bytes (length_zpad16_mod u)
  rw [← absorb_zpad16 h acc (t ++ u), ← absorb_zpad16 h _ u, zpad16_append ht, hu]
  obtain ⟨bs, rfl⟩ := exists_eq_flatMap_bytes ht
  rw [← List.flatMap_append, absorb_flatMap_bytes, absorb_flatMap_bytes, absorb_flatMap_bytes, List.foldl_append]

/-- A tail of 1 to 15 bytes is absorbed as one zero-padded Block. -/
theorem absorb_tail {t : Bytes} (hpos : 0 < t.length) (hlt : t.length < 16) :
    absorb h acc t = absorbBlock h acc (Block.ofBytes (t ++ zeros (16 - t.length))) := by
  rw [← absorb_zpad16, zpad16_tail hpos hlt, absorb_block]

end

/-- Absorbing strings one by one is hashing them padded one by one (R195). -/
theorem pvDigest_eq_pvHash (authKey : Block) (ad pt : Bytes) :
    pvDigest authKey ad pt = pvHash authKey (zpad16 ad ++ zpad16 pt ++ (lenBlk ad pt).bytes) := by
  rw [pvHash, List.append_assoc, absorb_append _ _ (length_zpad16_mod ad), absorb_append _ _ (length_zpad16_mod pt),
    absorb_zpad16, absorb_zpad16, absorb_block, pvDigest]

/-! ### The length Block (R196) -/

/-- Byte `i` of a number modulo 2^64, little-endian (R10). -/
theorem getD_u64le_ofNat (n : Nat) {i : Nat} (hi : i < 8) :
    (u64le (BitVec.ofNat 64 n)).getD i 0 = BitVec.ofNat 8 (n / 256 ^ i) := by
  have hbyte : (u64le (BitVec.ofNat 64 n)).getD i 0 = (BitVec.ofNat 64 n >>> (8 * i)).setWidth 8 := by
    simp [u64le, List.getD_eq_getElem?_getD, hi]
  have hpow : 256 ^ i = 2 ^ (8 * i) := (Nat.pow_mul 2 8 i).symm
  rw [hbyte, hpow]
  refine BitVec.eq_of_getLsbD_eq fun k hk => ?_
  rw [BitVec.getLsbD_setWidth, BitVec.getLsbD_ushiftRight, BitVec.getLsbD_ofNat, BitVec.getLsbD_ofNat,
    Nat.testBit_div_two_pow, decide_eq_true (show 8 * i + k < 64 by omega), Bool.true_and, Nat.add_comm k]

section
variable (ad pt : Bytes) {i : Nat} (hi : i < 8)
include hi

theorem get_lenBlk_low : (lenBlk ad pt).get i = BitVec.ofNat 8 (8 * ad.length / 256 ^ i) := by
  rw [lenBlk, Block.ofBytes_get _ (by omega), List.getD_append _ _ _ _ (by rwa [length_u64le]), getD_u64le_ofNat _ hi]

theorem get_lenBlk_high : (lenBlk ad pt).get (8 + i) = BitVec.ofNat 8 (8 * pt.length / 256 ^ i) := by
  rw [lenBlk, Block.ofBytes_get _ (by omega), List.getD_append_right _ _ _ _ (by rw [length_u64le]; omega),
    length_u64le, Nat.add_sub_cancel_left, getD_u64le_ofNat _ hi]

end

end Sys2Proof.Machine
end

section
/-! SUPPORT. The GCM-SIV mode (45_polyval_gcmsiv.md R198 to R207): the tag's cipher input byte by byte, the results of
GSIV.ENC and GSIV.DEC under a legal key and nonce, and the keystream pass undoing itself. -/

namespace Sys2Proof.Machine

/-! ### The input of the tag's cipher call (R198) -/

section
variable (authKey : Block) (nonce ad pt : Bytes)

theorem get_gsivTagInput_of_lt {i : Nat} (hi : i < 12) :
    (gsivTagInput authKey nonce ad pt).get i = (pvDigest authKey ad pt).get i ^^^ nonce.getD i 0 := by
  rw [gsivTagInput, Block.get_ofFn _ (by omega), if_pos hi]

theorem get_gsivTagInput_of_ge {i : Nat} (hge : 12 ≤ i) (hlt : i < 15) :
    (gsivTagInput authKey nonce ad pt).get i = (pvDigest authKey ad pt).get i := by
  rw [gsivTagInput, Block.get_ofFn _ (by omega), if_neg (by omega), if_neg (by omega)]

theorem getLsbD_get_gsivTagInput_last {k : Nat} (hk : k < 8) :
    ((gsivTagInput authKey nonce ad pt).get 15).getLsbD k =
      (decide (k ≠ 7) && ((pvDigest authKey ad pt).get 15).getLsbD k) := by
  have hlast : (gsivTagInput authKey nonce ad pt).get 15 = (pvDigest authKey ad pt).get 15 &&& 0x7f := by
    rw [gsivTagInput, Block.get_ofFn _ (by decide), if_neg (by decide), if_pos rfl]
  rw [hlast, getLsbD_and_0x7f _ hk]
  split <;> simp [*]

end

/-! ### The commands under a legal key and nonce -/

/-- The keystream pass undoes itself (R207). -/
theorem gsivCrypt_gsivCrypt (o : Oracles) (encKey : Bytes) (tag : Block) (data : Bytes) :
    gsivCrypt o encKey tag (gsivCrypt o encKey tag data) = data := by
  have hlen : (gsivCrypt o encKey tag data).length = data.length := by simp [gsivCrypt]
  conv_lhs => rw [gsivCrypt, hlen]
  exact xorBytes_cancel (Oracles.length_KS _ _ _ _ _).symm

section
variable {key nonce : Bytes} (hkey : key.length = 16 ∨ key.length = 32) (hnonce : nonce.length = 12) (ad : Bytes)
include hkey hnonce

/-- GSIV.ENC answers `ct || tag` (R201). -/
theorem exec_gsivEnc (pt : Bytes) (s : State) :
    let encKey := gsivEncKey Config.oracles key nonce
    let tag := gsivTagOf Config.oracles key nonce ad pt
    exec (.gsivEnc key nonce ad pt) s = .next (finished .ok false (gsivCrypt Config.oracles encKey tag pt ++ tag.bytes)
      (gsivDeriveCalls key nonce ++ [gsivTagCall Config.oracles key nonce ad pt,
        .ctrks encKey (gsivSeed tag) pt.length .le32]) s) :=
  (exec_of_gsivKey (i := .gsivEnc key nonce ad pt) hkey hnonce rfl s :)

/-- GSIV.DEC of `ct || tag` compares the tag of the recovered plaintext with the received one (R204). -/
theorem exec_gsivDec_append (ct : Bytes) (tag : Block) (s : State) :
    let encKey := gsivEncKey Config.oracles key nonce
    let pt := gsivCrypt Config.oracles encKey tag ct
    exec (.gsivDec key nonce ad (ct ++ tag.bytes)) s = .next (CommandResult.leaves
      (verified (gsivTagOf Config.oracles key nonce ad pt) tag pt
        (gsivDeriveCalls key nonce ++ [.ctrks encKey (gsivSeed tag) ct.length .le32,
          gsivTagCall Config.oracles key nonce ad pt])) s) := by
  have hlong : ¬ shortInput (ct ++ tag.bytes).length = true := by simp [shortInput]
  exact exec_of_gsivKey hkey hnonce (by simp only [resultOf, if_neg hlong, ctOf_append, tagOf_append]) s

end

end Sys2Proof.Machine
end

section
/-! The settled statements about POLYVAL and the GCM-SIV mode. -/

namespace Sys2Proof.Machine

/-- Settles O15: the result of each command in closed form. -/
theorem polyvalCommandsCommitTheirHash : Obligations.PolyvalCommandsCommitTheirHash :=
  ⟨fun h data s => exec_eq_result (.pvHash h data) s,
    fun authKey ad pt s => exec_eq_result (.pvDigest authKey ad pt) s⟩

/-- Settles O23: the result under a legal key and nonce; the derivation's calls come before the tag's one. -/
theorem gsivTagCommitsTheTag : Obligations.GsivTagCommitsTheTag :=
  fun key nonce ad pt s hkey hnonce => (exec_of_gsivKey (i := .gsivTag key nonce ad pt) hkey hnonce rfl s :)

/-- Settles O24: the result under a legal key and nonce, with the tag, its call and the keystream pass spelled out. -/
theorem gsivEncCommitsCiphertextAndTag : Obligations.GsivEncCommitsCiphertextAndTag :=
  fun _ _ ad pt s hkey hnonce => exec_gsivEnc hkey hnonce ad pt s

/-- Settles O25: the two answers of the comparison at VerifyTag. -/
theorem gsivDecReleasesOnlyOnTagMatch : Obligations.GsivDecReleasesOnlyOnTagMatch := by
  intro key nonce ad ct tag s hkey hnonce authKey encKey pt calls
  have hrun : exec (.gsivDec key nonce ad (ct ++ tag.bytes)) s =
      .next (CommandResult.leaves (verified (gsivTag Config.oracles authKey encKey nonce ad pt) tag pt calls) s) :=
    exec_gsivDec_append hkey hnonce ad ct tag s
  constructor
  · intro hmatch
    rw [hrun, hmatch, verified_self]; rfl
  · intro hdiffer
    rw [hrun, verified_of_ne hdiffer]; rfl

/-- Settles O40: whole Blocks are a fold, and absorbing goes on after them with the padded tail. -/
theorem polyvalAbsorbsPaddedBlocks : Obligations.PolyvalAbsorbsPaddedBlocks := by
  intro h bs tail
  refine ⟨absorb_flatMap_bytes h Block.zero bs, fun hpos hlt => ?_⟩
  have hwhole : (bs.flatMap Block.bytes).length % 16 = 0 := by rw [length_flatMap_bytes]; omega
  exact (absorb_append h Block.zero hwhole tail).trans (absorb_tail h _ hpos hlt)

/-- Settles O41: both strings are padded to whole Blocks, so the digest is one hash; its last Block byte by byte. -/
theorem polyvalDigestPadsSeparatelyAndAppendsLengths : Obligations.PolyvalDigestPadsSeparatelyAndAppendsLengths :=
  fun authKey ad pt =>
    ⟨pvDigest_eq_pvHash authKey ad pt, fun _ hi => ⟨get_lenBlk_low ad pt hi, get_lenBlk_high ad pt hi⟩⟩

/-- Settles O42: the cipher input is the masked digest, byte by byte. -/
theorem gsivTagMasksTheDigest : Obligations.GsivTagMasksTheDigest :=
  fun _ authKey _ nonce ad pt _ => ⟨gsivTagInput authKey nonce ad pt, rfl,
    fun _ hi => get_gsivTagInput_of_lt authKey nonce ad pt hi,
    fun _ hge hlt => get_gsivTagInput_of_ge authKey nonce ad pt hge hlt,
    fun _ hk => getLsbD_get_gsivTagInput_last authKey nonce ad pt hk⟩

/-- Settles O46: the second keystream pass, from the same tag, gives the plaintext, whose tag is the received one. -/
theorem gsivRoundTrip : Obligations.GsivRoundTrip := by
  intro key nonce ad pt s s' t hkey hnonce henc
  rw [exec_gsivEnc hkey hnonce] at henc
  obtain rfl := Host.Outcome.next.inj henc
  have hdec (tag : Block) := exec_gsivDec_append hkey hnonce ad
    (gsivCrypt Config.oracles (gsivEncKey Config.oracles key nonce) tag pt) tag s'
  simp only [gsivCrypt_gsivCrypt] at hdec
  exact ⟨_, (hdec _).trans (by rw [verified_self]; rfl)⟩

end Sys2Proof.Machine
end

section
/-! The settled statement about the comparator command. -/

namespace Sys2Proof.Machine

/-- Settles O14: the result of the command is the comparator's answer, which is the equality of the Blocks (R220). -/
theorem cteqWritesEqualityToEq : Obligations.CteqWritesEqualityToEq := by
  intro a b s
  have hanswer : cteq a b = decide (a = b) := Bool.eq_iff_iff.2 ((cteq_iff a b).trans decide_eq_true_iff.symm)
  rw [← hanswer]
  exact exec_eq_result (.cteq a b) s

end Sys2Proof.Machine
end

section
/-! SUPPORT. The errors (60_exceptions.md R231 to R233): what each length check does to a command it refuses, and the
errors an SIV or DEC command cannot end with; and how soon a command left alone is done (10_state.md R27). -/

namespace Sys2Proof.Machine

/-- A refused command leaves the error alone (R236). -/
theorem exec_of_refusedWith {i : Instr} {e : Status} (h : resultOf Config.oracles i = refusedWith e) (s : State) :
    exec i s = .next (finished e false [] [] s) := by
  rw [exec_eq_result, h]; rfl

/-- A key that phase Start finds illegal, whichever key check it is, ends the command in InvalidKeySize (R231). -/
theorem keySize_refused {i : Instr} {s : State} (hb : beginCommand i s = toPhase .invalidKey (accept i s)) :
    exec i s = .next (finished .invalidKeySize false [] [] s) ∧ (beginCommand i s).phase = .invalidKey :=
  ⟨(exec_eq_execWith i s).trans (execWith_of_invalidKey _ s hb), congrArg State.phase hb⟩

/-- The work of phase KeyValidated of a GSIV command with a legal key is the nonce check (R180). -/
theorem moveOf_gsiv_beginCommand (o : Oracles) {i : Instr} {s : State} (hop : i.opcode ∈ gsivOpcodes)
    (hb : beginCommand i s = toPhase .keyValidated (accept i s)) :
    moveOf o i.opcode (beginCommand i s) = some (gsivNonce (toPhase .keyValidated (accept i s))) := by
  rw [hb]; exact moveOf_gsiv_of_keyValidated o hop rfl

/-- A nonce that phase KeyValidated finds illegal ends a GSIV command in InvalidNonceSize (R232). -/
theorem nonceSize_refused {i : Instr} {s : State} (hop : i.opcode ∈ gsivOpcodes)
    (hb : beginCommand i s = toPhase .keyValidated (accept i s)) (hn : ¬ gsivNonceLen (operandsOf i).nlen = true)
    (hr : resultOf Config.oracles i = refusedWith .invalidNonceSize) :
    exec i s = .next (finished .invalidNonceSize false [] [] s) ∧ (beginCommand i s).phase = .keyValidated ∧
      ∃ t, moveOf Config.oracles i.opcode (beginCommand i s) = some t ∧ t.phase = .invalidNonce :=
  ⟨exec_of_refusedWith hr s, congrArg State.phase hb, _, moveOf_gsiv_beginCommand _ hop hb,
    (gsivNonce_phase _).trans (if_neg hn)⟩

/-- `gsivNonceLen` in numbers (R180, R232). -/
theorem gsivNonceLen_iff (n : Nat) : gsivNonceLen n = true ↔ n = 12 := beq_iff_eq

/-- `shortInput` in numbers (R233). -/
theorem shortInput_iff (n : Nat) : shortInput n = true ↔ n < 16 := decide_eq_true_iff

/-! ### The status a command ends with -/

/-- STATUS after a command is that of its result. -/
theorem status_of_exec {i : Instr} {s t : State} (h : exec i s = .next t) :
    t.results.status = (resultOf Config.oracles i).status := by
  rw [exec_eq_result] at h
  obtain rfl := Host.Outcome.next.inj h
  rfl

/-- A check that refuses with another error than `st` keeps `st` away if the accepted branch does. -/
theorem status_ne_of_checked {p : Prop} [Decidable p] {r : CommandResult} {e st : Status} (he : e ≠ st)
    (hr : r.status ≠ st) : (if p then r else refusedWith e).status ≠ st := by
  split
  · exact hr
  · exact he

/-- The same, for a check that refuses when its condition holds. -/
theorem status_ne_of_unless {p : Prop} [Decidable p] {r : CommandResult} {e st : Status} (he : p → e ≠ st)
    (hr : r.status ≠ st) : (if p then refusedWith e else r).status ≠ st := by
  split
  · exact he ‹p›
  · exact hr

/-- A comparison of tags ends in Ok or in AuthenticationFailed (R235). -/
theorem status_verified_ne {st : Status} (hok : .ok ≠ st) (hauth : .authenticationFailed ≠ st) (expected tag : Block)
    (pt : Bytes) (calls : List OracleCall) : (verified expected tag pt calls).status ≠ st := by
  unfold verified
  split
  · exact hok
  · exact hauth

section
variable (o : Oracles) (key nonce ad : Bytes) {msg : Bytes}

/-- Every nonce is valid for SIV.ENC (R161). -/
theorem status_sivEnc_ne_invalidNonceSize : (resultOf o (.sivEnc key nonce ad msg)).status ≠ .invalidNonceSize :=
  status_ne_of_checked (by decide) (by simp)

/-- Every nonce is valid for SIV.DEC (R161). -/
theorem status_sivDec_ne_invalidNonceSize : (resultOf o (.sivDec key nonce ad msg)).status ≠ .invalidNonceSize :=
  status_ne_of_checked (by decide) (status_ne_of_unless (fun _ => by decide)
    (status_verified_ne (by decide) (by decide) _ _ _ _))

/-- SIV.DEC ends in ShortInput only by its length check (R166). -/
theorem status_sivDec_ne_shortInput (hm : ¬ shortInput msg.length = true) :
    (resultOf o (.sivDec key nonce ad msg)).status ≠ .shortInput :=
  status_ne_of_checked (by decide) (status_ne_of_unless (fun h => absurd h hm)
    (status_verified_ne (by decide) (by decide) _ _ _ _))

/-- GSIV.DEC ends in ShortInput only by its length check (R203). -/
theorem status_gsivDec_ne_shortInput (hm : ¬ shortInput msg.length = true) :
    (resultOf o (.gsivDec key nonce ad msg)).status ≠ .shortInput :=
  status_ne_of_checked (by decide) (status_ne_of_checked (by decide) (status_ne_of_unless (fun h => absurd h hm)
    (status_verified_ne (by decide) (by decide) _ _ _ _)))

end

/-! ### A command left alone -/

/-- With no host action, time passing on a command that is done changes nothing. -/
theorem run_of_done {s : State} (hd : s.phase = .done) (hh : s.host = []) :
    ∀ n : Nat, Sys2Proof.core.run n s = .next s
  | 0 => rfl
  | n + 1 => by rw [core_run_succ n ((step_of_no_host hh).trans (idle_of_done hd)), run_of_done hd hh n]

/-- With no host action, a command is done after as many steps as it has phases to come (R27). -/
theorem OnPath.run_reaches_done {i : Instr} {ps : List Phase} {s : State} {n : Nat} (h : OnPath i ps s)
    (hh : s.host = []) (hn : ps.length ≤ n) : ∃ t, Sys2Proof.core.run n s = .next t ∧ t.phase = .done := by
  induction ps generalizing s n with
  | nil => exact ⟨s, run_of_done h.done hh n, h.done⟩
  | cons q ps ih =>
    obtain ⟨n, rfl⟩ : ∃ k, n = k + 1 := Nat.exists_eq_add_one.2 (Nat.zero_lt_of_lt hn)
    obtain ⟨t, hm, -, ht⟩ := h.move Config.oracles
    rw [core_run_succ n ((step_of_no_host hh).trans (h.idle hm))]
    exact ih ht ((moveOf_host hm).trans hh) (Nat.le_of_succ_le_succ hn)

/-- A running command has at most five phases to come (R27). -/
theorem OnPath.length_le {i : Instr} {ps : List Phase} {s : State} (h : OnPath i ps s) : ps.length ≤ 5 :=
  Nat.le_of_succ_le_succ (h.suffix.length_le.trans (length_pathTaken_le i))

end Sys2Proof.Machine
end

section
/-! The settled statements about exceptions and about progress. -/

namespace Sys2Proof.Machine

/-- Settles O53: the state a step answers is the one `Inv.step` gives. -/
theorem stepNeverStops : Obligations.StepNeverStops := fun _ h => h.step.imp fun _ ht => ht.1

/-- Settles O26: each of the three key checks leaves the command in InvalidKey. -/
theorem wrongKeySizeIsRefused : Obligations.WrongKeySizeIsRefused := by
  intro key s refused
  refine ⟨fun h16 h24 h32 => ?_, fun h32 h64 nonce ad msg => ?_, fun h16 h32 nonce ad msg => ?_⟩
  · have hk : ¬ bcoKeyLen key.length = true := by rw [bcoKeyLen_iff]; omega
    exact ⟨keySize_refused (if_neg hk), fun _ => keySize_refused (if_neg hk), fun _ _ => keySize_refused (if_neg hk),
      fun _ _ => keySize_refused (if_neg hk)⟩
  · have hk : ¬ sivKeyLen key.length = true := by rw [sivKeyLen_iff]; omega
    exact ⟨keySize_refused (if_neg hk), keySize_refused (if_neg hk)⟩
  · have hk : ¬ gsivKeyLen key.length = true := by rw [gsivKeyLen_iff]; omega
    exact ⟨keySize_refused (if_neg hk), keySize_refused (if_neg hk), keySize_refused (if_neg hk),
      keySize_refused (if_neg hk)⟩

/-- Settles O27: the nonce check refuses the GSIV commands; no branch of an SIV command's result has that status. -/
theorem wrongNonceSizeIsRefused : Obligations.WrongNonceSizeIsRefused := by
  constructor
  · intro key nonce ad msg s hkey hnonce refused
    have hk : gsivKeyLen key.length = true := (gsivKeyLen_iff _).2 hkey
    have hn : ¬ gsivNonceLen nonce.length = true := by rwa [gsivNonceLen_iff]
    refine ⟨?_, ?_, ?_, ?_⟩ <;> exact nonceSize_refused (by simp [Instr.opcode, gsivOpcodes]) (if_pos hk) hn
      ((if_pos hk).trans (if_neg hn))
  · rintro key nonce ad msg s t (h | h) <;> rw [status_of_exec h]
    · exact status_sivEnc_ne_invalidNonceSize _ _ _ _
    · exact status_sivDec_ne_invalidNonceSize _ _ _ _

/-- Settles O28: both DEC commands find the input short in NonceValidated; only a short input gives that status. -/
theorem shortInputIsRefused : Obligations.ShortInputIsRefused := by
  intro key nonce ad msg s refused
  refine ⟨fun hmsg hkey => ?_, fun hmsg hkey hnonce => ?_, ?_⟩
  · have hk : sivKeyLen key.length = true := (sivKeyLen_iff _).2 hkey
    have hm : shortInput msg.length = true := (shortInput_iff _).2 hmsg
    have hb : beginCommand (.sivDec key nonce ad msg) s = sivKeyed (.sivDec key nonce ad msg) s := if_pos hk
    refine ⟨exec_of_refusedWith (i := .sivDec key nonce ad msg) ((if_pos hk).trans (if_pos hm)) s, ?_⟩
    rw [hb]
    exact ⟨_, rfl, rfl, congrArg some (if_pos hm)⟩
  · have hk : gsivKeyLen key.length = true := (gsivKeyLen_iff _).2 hkey
    have hn : gsivNonceLen nonce.length = true := (gsivNonceLen_iff _).2 hnonce
    have hm : shortInput msg.length = true := (shortInput_iff _).2 hmsg
    refine ⟨exec_of_refusedWith (i := .gsivDec key nonce ad msg) ((if_pos hk).trans ((if_pos hn).trans (if_pos hm))) s,
      toPhase .nonceValidated (accept (.gsivDec key nonce ad msg) s), ?_, rfl, congrArg some (if_pos hm)⟩
    exact (moveOf_gsiv_beginCommand (i := .gsivDec key nonce ad msg) _ (by simp [Instr.opcode, gsivOpcodes])
      (if_pos hk)).trans
      (congrArg some (if_pos hn))
  · intro hlong t h
    have hm : ¬ shortInput msg.length = true := by rwa [shortInput_iff, Nat.not_lt]
    rcases h with h | h <;> rw [status_of_exec h]
    · exact status_sivDec_ne_shortInput _ _ _ _ hm
    · exact status_gsivDec_ne_shortInput _ _ _ _ hm

/-- Settles O54: a BUSY core is on the path of its command, which has at most five phases to come. -/
theorem runningCommandReachesDone : Obligations.RunningCommandReachesDone := by
  intro s h hb hh
  obtain ⟨i, q, ps, -, hs⟩ := h.onPath hb
  exact hs.run_reaches_done hh hs.length_le

/-- Settles O3: on an idle core both ways of presenting reject the descriptor. -/
theorem illegalDescriptorEndsInIllegalCommand : Obligations.IllegalDescriptorEndsInIllegalCommand := by
  intro s desc rest e hhost hb hd
  have hidle : ¬ (s.withHost rest).busy = true := by simp [hb]
  rcases hhost with hh | hh <;> simp only [step, portStep, hh, hostAct, if_neg hidle]
  · exact issue_of_error hd _
  · exact congrArg Host.Outcome.next (present_of_error hd _)

end Sys2Proof.Machine
end

section
/-! SUPPORT. What a DEC command may release (43_siv.md R167, 45_polyval_gcmsiv.md R204), and the step of a host action and
of an idle core (70_reset_and_hazards.md R260 to R268). -/

namespace Sys2Proof.Machine

/-! ### The results of the DEC commands -/

/-- A result that leaves a byte in DOUT or EQ 1 only with status Ok, EQ 1 and an output that satisfies `P` (R35). -/
def CommandResult.ReleasesOnly (r : CommandResult) (P : Bytes → Prop) : Prop :=
  r.out ≠ [] ∨ r.eq = true → r.status = .ok ∧ r.eq = true ∧ P r.out

section
variable {P : Bytes → Prop}

/-- A refused command releases nothing (R236). -/
theorem releasesOnly_refusedWith (e : Status) : (refusedWith e).ReleasesOnly P := by
  rintro (hout | heq)
  · exact absurd rfl hout
  · exact absurd heq Bool.false_ne_true

/-- The comparison of the tags releases the plaintext only when the tags are the same (R235). -/
theorem releasesOnly_verified {expected tag : Block} {pt : Bytes} (h : expected = tag → P pt) (calls : List OracleCall) :
    (verified expected tag pt calls).ReleasesOnly P := by
  by_cases htag : expected = tag
  · rw [htag, verified_self]
    exact fun _ => ⟨rfl, rfl, h htag⟩
  · rw [verified_of_ne htag]
    exact releasesOnly_refusedWith .authenticationFailed

/-- A check that refuses releases no more than the accepted branch does. -/
theorem releasesOnly_checked {p : Prop} [Decidable p] {r : CommandResult} (h : r.ReleasesOnly P) (e : Status) :
    (if p then r else refusedWith e).ReleasesOnly P := by
  split
  · exact h
  · exact releasesOnly_refusedWith e

/-- The same, for a check that refuses when its condition holds. -/
theorem releasesOnly_unless {p : Prop} [Decidable p] {r : CommandResult} (h : r.ReleasesOnly P) (e : Status) :
    (if p then refusedWith e else r).ReleasesOnly P := by
  split
  · exact releasesOnly_refusedWith e
  · exact h

/-- The registers after a command release what its result does. -/
theorem releases_of_exec {i : Instr} {s t : State} (h : exec i s = .next t)
    (hr : (resultOf Config.oracles i).ReleasesOnly P) (ht : t.results.dout ≠ [] ∨ t.results.eq = true) :
    t.results.status = .ok ∧ t.results.eq = true ∧ P t.results.dout := by
  rw [exec_eq_result] at h
  obtain rfl := Host.Outcome.next.inj h
  exact hr ht

end

section
variable (o : Oracles) (key nonce ad msg : Bytes)

/-- SIV.DEC releases only a plaintext whose tag is the received one (R167). -/
theorem releasesOnly_sivDec :
    (resultOf o (.sivDec key nonce ad msg)).ReleasesOnly fun pt => sivTag o key nonce ad pt = tagOf msg :=
  releasesOnly_checked (releasesOnly_unless (releasesOnly_verified id _) _) _

/-- GSIV.DEC releases only a plaintext whose tag is the received one (R204). -/
theorem releasesOnly_gsivDec :
    (resultOf o (.gsivDec key nonce ad msg)).ReleasesOnly fun pt => gsivTagOf o key nonce ad pt = tagOf msg :=
  releasesOnly_checked (releasesOnly_checked (releasesOnly_unless (releasesOnly_verified id _) _) _) _

end

/-! ### Steps of the machine -/

/-- The front action of the queue acts on the core with the rest of the queue. -/
theorem step_of_host {s : State} {a : HostAct} {rest : List HostAct} (h : s.host = a :: rest) :
    step s = hostAct a (s.withHost rest) := by simp [step, portStep, h]

/-- Time passing on an idle core changes nothing (R264). -/
theorem idle_of_not_busy {s : State} (h : s.busy = false) : idle s = .next s := if_neg (by simp [h])

/-- START while BUSY, waited for or not, is ignored (R268). -/
theorem hostAct_start_of_busy {s : State} (h : s.busy = true) (desc : Bytes) :
    hostAct (.start desc) s = .next s ∧ hostAct (.present desc) s = .next s := ⟨if_pos h, if_pos h⟩

end Sys2Proof.Machine
end

section
/-! The settled statements about reset, the host's actions and the release of plaintext. -/

namespace Sys2Proof.Machine

/-- Settles O48: every branch of a DEC command's result that releases anything has passed the comparison of the tags. -/
theorem noPlaintextWithoutVerification : Obligations.NoPlaintextWithoutVerification :=
  fun key nonce ad msg _ _ => ⟨fun h => releases_of_exec h (releasesOnly_sivDec _ key nonce ad msg),
    fun h => releases_of_exec h (releasesOnly_gsivDec _ key nonce ad msg)⟩

/-- Settles O4: both ways of presenting a descriptor leave a BUSY core as it is. -/
theorem startWhileBusyIsIgnored : Obligations.StartWhileBusyIsIgnored := by
  intro s desc rest hhost hb
  obtain ⟨hstart, hpresent⟩ := hostAct_start_of_busy (s := s.withHost rest) hb desc
  rcases hhost with hh | hh
  · exact (step_of_host hh).trans hstart
  · exact (step_of_host hh).trans hpresent

/-- Settles O5: the action of reset looks at nothing of the state but the queue. -/
theorem resetAbandonsTheCommand : Obligations.ResetAbandonsTheCommand := fun _ _ hh => ⟨step_of_host hh, rfl⟩

/-- Settles O6: with no action, or the action of waiting, only time passes. -/
theorem idleCoreWaitsForTheHost : Obligations.IdleCoreWaitsForTheHost := fun s hb =>
  ⟨fun hh => (step_of_no_host hh).trans (idle_of_not_busy hb),
    fun rest hh => (step_of_host hh).trans (idle_of_not_busy (s := s.withHost rest) hb)⟩

end Sys2Proof.Machine
end
